-- ==== Sys2Proof/Config.lean ====
section
/-! DEFINITION. The parameters of 00_scope.md R4. Every one is a constant of the model; none is run-time
configurable. Where a parameter is the length or the width of a type, the type carries the number itself (`Fin 24`,
`Vector Rgb 16`). The spec leaves no VALUE open, so there is no opaque constant here. -/

namespace Sys2Proof.Config

/-- `PKT_LEN`: bytes per packet. -/
abbrev pktLen : Nat := 24
/-- `PAYLOAD_OFF`: packet offset of payload byte 0. -/
abbrev payloadOff : Nat := 4
/-- `PAYLOAD_LEN`: payload bytes. -/
abbrev payloadLen : Nat := 16
/-- `PARQ_OFF`: packet offset of the Q-parity region. -/
abbrev parQOff : Nat := 2
/-- `PARQ_LEN`: bytes of the Q-parity region. -/
abbrev parQLen : Nat := 2
/-- `PARP_OFF`: packet offset of the P-parity region. -/
abbrev parPOff : Nat := 20
/-- `PARP_LEN`: bytes of the P-parity region. -/
abbrev parPLen : Nat := 4
/-- `FIELD_MASK`: the mask applied to the command, instruction and most payload bytes. -/
abbrev fieldMask : BitVec 8 := 0x3F
/-- `CMD_MARKER`: the masked command value of a graphics command. -/
abbrev cmdMarker : BitVec 8 := 0x09
/-- `W`: pixels per row (x runs 0..287). -/
abbrev width : Nat := 288
/-- `H`: rows (y runs 0..191). -/
abbrev height : Nat := 192
/-- `NPIX = W * H`: pixel cells. -/
abbrev nPix : Nat := 55296
/-- `TILE_W`: tile width in pixels. -/
abbrev tileW : Nat := 6
/-- `TILE_H`: tile height in pixels. -/
abbrev tileH : Nat := 12
/-- `PAL_N`: palette entries. -/
abbrev palN : Nat := 16
/-- `EXPAND`: multiplier from a 4-bit channel to an 8-bit channel. -/
abbrev expand : BitVec 8 := 17
/-- `ALPHA_OPAQUE`: the alpha value the resolve path delivers. -/
abbrev alphaOpaque : BitVec 8 := 255

/-- The two values of the parameter `CLUT_REPACK` (92_eei_decisions.md D6, 90_conflicts.md C3). -/
inductive ClutRepack where
  /-- RGB444 is `(high6 << 6) | low6`. -/
  | concat
  /-- RGB444 is `(high6 << 4) | low6`, the rejected literal reading. -/
  | overlap
  deriving DecidableEq, Repr

/-- `CLUT_REPACK`: how the two colour bytes form RGB444; this hardware takes `CONCAT`
(00_scope.md R4, 92_eei_decisions.md D6; log entry 9). -/
def clutRepack : ClutRepack := .concat

end Sys2Proof.Config
end

