-- ==== Sys2Proof/Word.lean ====
section
/-! DEFINITION. The word types of the hardware: every value is an unsigned bit pattern of a stated width
(00_scope.md R5; there is no signed quantity anywhere). -/

namespace Sys2Proof

/-- A byte of the input stream, and one 8-bit colour channel (00_scope.md R5). -/
abbrev Byte := BitVec 8

/-- One cell of the pixel RAM: a 6-bit palette index (10_state.md R25, `PIX_W = 6`). -/
abbrev Pixel := BitVec 6

/-- A 4-bit colour channel before expansion, and the 4-bit operand fields (30_encoding.md R91). -/
abbrev Nibble := BitVec 4

/-- A 12-bit RGB444 colour entry: red in bits 11:8, green in 7:4, blue in 3:0 (30_encoding.md R90). -/
abbrev Rgb444 := BitVec 12

end Sys2Proof
end

