-- ==== Sys2Proof/Syntax.lean ====
section
/-! DEFINITION. The packet, the instructions (one constructor per row of opcode_table.json) and the decoded
forms a retire record shows. -/

namespace Sys2Proof

/-- A framed packet with the source's five fields (10_state.md R21, 30_encoding.md R80). -/
structure Packet where
  command     : Byte
  instruction : Byte
  parityQ     : Vector Byte 2
  payload     : Vector Byte 16
  parityP     : Vector Byte 4
  deriving DecidableEq, Repr

/-- The twelve mask rows of a tile, row `cy` at index `cy`; bit 5 of a row is its leftmost pixel
(30_encoding.md R85). -/
abbrev TileMask := Vector (BitVec 6) 12

/-- The operands of format `TB` (30_encoding.md R85). `row` and `column` are tile-grid coordinates
(90_conflicts.md C4). -/
structure TileBlock where
  color0 : Pixel
  color1 : Pixel
  row    : BitVec 5
  column : BitVec 6
  mask   : TileMask
  deriving DecidableEq, Repr

/-- The operands of format `SC` (30_encoding.md R86, R102). -/
structure ScrollFields where
  color   : Nibble
  hCmd    : BitVec 2
  hOffset : BitVec 3
  vCmd    : BitVec 2
  vOffset : BitVec 4
  deriving DecidableEq, Repr

/-- The eight 12-bit operands `e0 .. e7` of format `CT` (30_encoding.md R87, R98). -/
abbrev ClutEntries := Vector Rgb444 8

/-- One constructor per row of opcode_table.json: the nine instructions of 30_encoding.md R92 and the two
outcomes that are no instruction (40_framer_dispatch.md R127, R128). -/
inductive Instr where
  /-- `MEMPRE color, repeat` (41_preset.md R140). -/
  | memPre (color reps : Nibble)
  /-- `BORDER` (41_preset.md R141). -/
  | border
  /-- `TILE` (42_tile_block.md R150). -/
  | tile (b : TileBlock)
  /-- `SCRLP` (43_scroll_transparent.md R166). -/
  | scrlP (f : ScrollFields)
  /-- `SCRLC` (43_scroll_transparent.md R167). -/
  | scrlC (f : ScrollFields)
  /-- `TRANSP` (43_scroll_transparent.md R168). -/
  | transp
  /-- `CLUTLO e0, .., e7` (44_color_table.md R175). -/
  | clutLo (es : ClutEntries)
  /-- `CLUTHI e0, .., e7` (44_color_table.md R176). -/
  | clutHi (es : ClutEntries)
  /-- `TILEX` (42_tile_block.md R151). -/
  | tileX (b : TileBlock)
  /-- `UNSUP`: a command packet with one of the 55 other codes (40_framer_dispatch.md R128). -/
  | unsup (code : BitVec 6)
  /-- `NOTCMD`: the command test fails (40_framer_dispatch.md R127). -/
  | notCmd
  deriving DecidableEq, Repr

/-- A palette entry: three 8-bit channels, stored already expanded (10_state.md R26). -/
structure Rgb where
  r : Byte
  g : Byte
  b : Byte
  deriving DecidableEq, Repr

/-- The closed variant `Instr` of 10_state.md R34, with exactly its six alternatives. -/
inductive DecodedInstr where
  | memoryPreset (color reps : Nibble)
  | borderPreset
  | tileBlock (b : TileBlock) (xor : Bool)
  | scroll (f : ScrollFields) (copy : Bool)
  | colorTableLoad (offset : Nat) (colors : Vector Rgb 8)
  | transparentColor
  deriving DecidableEq, Repr

/-- The closed variant `Outcome` of 10_state.md R35: the retire record of a packet. -/
inductive DecodeOutcome where
  | notACommand
  | unsupported (code : BitVec 6)
  | instruction (i : DecodedInstr)
  deriving DecidableEq, Repr

end Sys2Proof
end

