-- ==== Sys2Proof/WellFormed.lean ====
section
/-! DEFINITION. Which terms of `Instr` stand for a packet. Every field has the width of its encoding, so the
one check left is that `UNSUP` carries a code outside the nine of 30_encoding.md R92. -/

namespace Sys2Proof

/-- The nine recognised instruction codes (30_encoding.md R92). -/
def recognizedCodes : List Nat := [1, 2, 6, 20, 24, 28, 30, 31, 38]

/-- `UNSUP`'s code is one of the 55 of 30_encoding.md R94; every other term is well formed. -/
def Instr.wellFormed : Instr → Bool
  | .unsup code => !recognizedCodes.contains code.toNat
  | .memPre _ _ => true
  | .border => true
  | .tile _ => true
  | .scrlP _ => true
  | .scrlC _ => true
  | .transp => true
  | .clutLo _ => true
  | .clutHi _ => true
  | .tileX _ => true
  | .notCmd => true

end Sys2Proof
end

