-- ==== Sys2Proof/Decode.lean ====
section
/-! DEFINITION. The framed packet from bytes and back, the decoder (total on packets, rejecting a short byte
list by name), the canonical encoder, and the opcode table's word view of a packet. -/

namespace Sys2Proof

/-- `b[lo + len - 1 : lo]` of a byte (00_scope.md R5). -/
def field (b : Byte) (lo len : Nat) : BitVec len := b.extractLsb' lo len

/-- The packet held by exactly 24 bytes, offset 0 first (20_memory.md R54, 30_encoding.md R80). -/
def Packet.ofBytes : List Byte → Option Packet
  | [b0, b1, b2, b3, b4, b5, b6, b7, b8, b9, b10, b11, b12, b13, b14, b15, b16, b17, b18, b19, b20, b21, b22, b23] =>
    some
      { command := b0
        instruction := b1
        parityQ := #v[b2, b3]
        payload := #v[b4, b5, b6, b7, b8, b9, b10, b11, b12, b13, b14, b15, b16, b17, b18, b19]
        parityP := #v[b20, b21, b22, b23] }
  | _ => none

/-- The five fields written out in order (40_framer_dispatch.md R125). -/
def Packet.toBytes (p : Packet) : List Byte :=
  p.command :: p.instruction :: (p.parityQ.toList ++ (p.payload.toList ++ p.parityP.toList))

/-- The command test, `command & 0x3F == 0x09` (30_encoding.md R81). -/
def Packet.isCommand (p : Packet) : Bool := p.command &&& Config.fieldMask == Config.cmdMarker

/-- The effective instruction code, `instruction & 0x3F` (30_encoding.md R82). -/
def Packet.code (p : Packet) : BitVec 6 := field p.instruction 0 6

/-- The opcode word `OPW`: the command byte in bits 15:8, the instruction byte in bits 7:0 (30_encoding.md R82). -/
def Packet.opw (p : Packet) : BitVec 16 := p.command ++ p.instruction

/-- Format `TB` (30_encoding.md R85). -/
def decodeTile (pl : Vector Byte 16) : TileBlock :=
  { color0 := field pl[0] 0 6
    color1 := field pl[1] 0 6
    row := field pl[2] 0 5
    column := field pl[3] 0 6
    mask := #v[field pl[4] 0 6, field pl[5] 0 6, field pl[6] 0 6, field pl[7] 0 6, field pl[8] 0 6, field pl[9] 0 6,
      field pl[10] 0 6, field pl[11] 0 6, field pl[12] 0 6, field pl[13] 0 6, field pl[14] 0 6, field pl[15] 0 6] }

/-- Format `SC` (30_encoding.md R86, R102). -/
def decodeScroll (pl : Vector Byte 16) : ScrollFields :=
  { color := field pl[0] 0 4
    hCmd := field pl[1] 4 2
    hOffset := field pl[1] 0 3
    vCmd := field pl[2] 4 2
    vOffset := field pl[2] 0 4 }

/-- How `high6` and `low6` form the RGB444 value, for each value of `CLUT_REPACK` (30_encoding.md R90;
90_conflicts.md C3 writes the second one out). -/
def repack (mode : Config.ClutRepack) (high6 low6 : BitVec 6) : Rgb444 :=
  match mode with
  | .concat => high6 ++ low6
  | .overlap => (high6.setWidth 12 <<< 4) ||| low6.setWidth 12

/-- One colour entry from its two payload bytes (30_encoding.md R90). -/
def decodeEntry (hi lo : Byte) : Rgb444 := repack Config.clutRepack (field hi 0 6) (field lo 0 6)

/-- Format `CT` (30_encoding.md R87): entry `i` in `P[2i]`, `P[2i+1]`. -/
def decodeEntries (pl : Vector Byte 16) : ClutEntries :=
  #v[decodeEntry pl[0] pl[1], decodeEntry pl[2] pl[3], decodeEntry pl[4] pl[5], decodeEntry pl[6] pl[7],
    decodeEntry pl[8] pl[9], decodeEntry pl[10] pl[11], decodeEntry pl[12] pl[13], decodeEntry pl[14] pl[15]]

/-- A command packet's instruction by its code (40_framer_dispatch.md R126). -/
def decodeCommand (code : BitVec 6) (pl : Vector Byte 16) : Instr :=
  match code.toNat with
  | 1 => .memPre (field pl[0] 0 4) (field pl[1] 0 4)
  | 2 => .border
  | 6 => .tile (decodeTile pl)
  | 20 => .scrlP (decodeScroll pl)
  | 24 => .scrlC (decodeScroll pl)
  | 28 => .transp
  | 30 => .clutLo (decodeEntries pl)
  | 31 => .clutHi (decodeEntries pl)
  | 38 => .tileX (decodeTile pl)
  | _ => .unsup code

/-- `decode(pkt)`, total on the 2^192 packets: the command test first, then the code
(30_encoding.md R93, 40_framer_dispatch.md R126). -/
def decode (p : Packet) : Instr :=
  if p.isCommand then decodeCommand p.code p.payload else .notCmd

/-- Why a byte list gives no instruction. -/
inductive DecodeReject where
  /-- Fewer than 24 bytes: "No partial packet is ever returned" (40_framer_dispatch.md R122). -/
  | shortPacket (got : Nat)
  deriving DecidableEq, Repr

/-- The decoder on any bytes: the first packet's instruction and the bytes after it. -/
def decodeBytes (bs : List Byte) : Except DecodeReject (Instr × List Byte) :=
  match Packet.ofBytes (bs.take Config.pktLen) with
  | some p => .ok (decode p, bs.drop Config.pktLen)
  | none => .error (.shortPacket bs.length)

/-! ### The canonical encoder (30_encoding.md R100) -/

/-- The packet with command byte 0x09, the given code and payload, and zero parity. -/
def commandPacket (code : BitVec 6) (pl : Vector Byte 16) : Packet :=
  { command := 0x09, instruction := code.setWidth 8, parityQ := #v[0, 0], payload := pl, parityP := #v[0, 0, 0, 0] }

/-- A payload of zeros. -/
def zeroPayload : Vector Byte 16 := #v[0, 0, 0, 0, 0, 0, 0, 0, 0, 0, 0, 0, 0, 0, 0, 0]

/-- Format `MP` (30_encoding.md R84). -/
def encodePreset (color reps : Nibble) : Vector Byte 16 :=
  #v[color.setWidth 8, reps.setWidth 8, 0, 0, 0, 0, 0, 0, 0, 0, 0, 0, 0, 0, 0, 0]

/-- Format `TB` (30_encoding.md R85). -/
def encodeTile (b : TileBlock) : Vector Byte 16 :=
  #v[b.color0.setWidth 8, b.color1.setWidth 8, b.row.setWidth 8, b.column.setWidth 8,
    b.mask[0].setWidth 8, b.mask[1].setWidth 8, b.mask[2].setWidth 8, b.mask[3].setWidth 8,
    b.mask[4].setWidth 8, b.mask[5].setWidth 8, b.mask[6].setWidth 8, b.mask[7].setWidth 8,
    b.mask[8].setWidth 8, b.mask[9].setWidth 8, b.mask[10].setWidth 8, b.mask[11].setWidth 8]

/-- Format `SC` (30_encoding.md R86): `h_cmd` at bits 5:4 and `h_offset` at 2:0 of `P[1]`, `v_cmd` at 5:4 and
`v_offset` at 3:0 of `P[2]`. -/
def encodeScroll (f : ScrollFields) : Vector Byte 16 :=
  #v[f.color.setWidth 8, (f.hCmd.setWidth 8 <<< 4) ||| f.hOffset.setWidth 8,
    (f.vCmd.setWidth 8 <<< 4) ||| f.vOffset.setWidth 8, 0, 0, 0, 0, 0, 0, 0, 0, 0, 0, 0, 0, 0]

/-- `P[2i] = e[11:6]` (30_encoding.md R100). -/
def entryHigh (e : Rgb444) : Byte := (e.extractLsb' 6 6).setWidth 8

/-- `P[2i+1] = e[5:0]` (30_encoding.md R100). -/
def entryLow (e : Rgb444) : Byte := (e.extractLsb' 0 6).setWidth 8

/-- Format `CT` (30_encoding.md R87, R100). -/
def encodeEntries (es : ClutEntries) : Vector Byte 16 :=
  #v[entryHigh es[0], entryLow es[0], entryHigh es[1], entryLow es[1], entryHigh es[2], entryLow es[2],
    entryHigh es[3], entryLow es[3], entryHigh es[4], entryLow es[4], entryHigh es[5], entryLow es[5],
    entryHigh es[6], entryLow es[6], entryHigh es[7], entryLow es[7]]

/-- The packet of 24 zero bytes: the directive `NOP` (30_encoding.md R101). -/
def nopPacket : Packet :=
  { command := 0, instruction := 0, parityQ := #v[0, 0], payload := zeroPayload, parityP := #v[0, 0, 0, 0] }

/-- The canonical packet of an instruction (30_encoding.md R100, R101). -/
def encodePacket : Instr → Packet
  | .memPre color reps => commandPacket 1 (encodePreset color reps)
  | .border => commandPacket 2 zeroPayload
  | .tile b => commandPacket 6 (encodeTile b)
  | .scrlP f => commandPacket 20 (encodeScroll f)
  | .scrlC f => commandPacket 24 (encodeScroll f)
  | .transp => commandPacket 28 zeroPayload
  | .clutLo es => commandPacket 30 (encodeEntries es)
  | .clutHi es => commandPacket 31 (encodeEntries es)
  | .tileX b => commandPacket 38 (encodeTile b)
  | .unsup code => commandPacket code zeroPayload
  | .notCmd => nopPacket

/-- The 24 bytes of an instruction's canonical packet. -/
def encode (i : Instr) : List Byte := (encodePacket i).toBytes

/-! ### The opcode table's numbering of a packet's bits -/

/-- Byte `k` of the packet whose bits are `w`, numbered as opcode_table.json numbers them: 16-bit words
`{BUF[2j], BUF[2j+1]}`, the first word in bits 15:0, each with its first byte in the upper half (log entry 17). -/
def tableWordByte (w k : Nat) : Byte := BitVec.ofNat 8 (w >>> (16 * (k / 2) + (if k % 2 = 0 then 8 else 0)))

/-- The 24 bytes of that packet; every bit from `nbits` on is 0. -/
def tableWordBytes (nbits w : Nat) : List Byte := (List.range Config.pktLen).map (tableWordByte (w % 2 ^ nbits))

/-- The instruction the decoder reads from a table word. -/
def decodeTableWord (nbits w : Nat) : Option Instr :=
  match decodeBytes (tableWordBytes nbits w) with
  | .ok (i, _) => some i
  | .error _ => none

end Sys2Proof
end

