-- ==== Sys2Proof/Machine/State.lean ====
section
/-! DEFINITION. The state of one instance of the hardware (10_state.md R20), the events that drive it and the
outputs it emits, the reasons a step can stop, and the state after reset. -/

namespace Sys2Proof.Machine

/-- The pixel RAM as a list of (address, cell) pairs in one canonical form: addresses strictly rising, no
entry equal to what an unlisted address reads as, no address outside 0..55295 (log entry 7). -/
abbrev Memory := List (Nat × Pixel)

/-- `SESSION` (10_state.md R24). -/
inductive Session where
  /-- Bytes are accepted. -/
  | run
  /-- The stream ended on a packet boundary. -/
  | done
  /-- The stream ended inside a packet. -/
  | err
  deriving DecidableEq, Repr

/-- The two exceptions of the hardware, each with the value it records (60_exceptions.md R205). -/
inductive Exn where
  /-- Raised by `EndOfStream` with 1..23 bytes left over (60_exceptions.md R206). -/
  | shortRead (left : Nat)
  /-- Raised by a look-up of a pixel whose index has no palette entry (60_exceptions.md R207). -/
  | paletteIndexOutOfRange (x y : Nat) (idx : Pixel)
  deriving DecidableEq, Repr

/-- A resolved colour with its alpha (45_host_ops.md R194). -/
structure Rgba where
  r : Byte
  g : Byte
  b : Byte
  a : Byte
  deriving DecidableEq, Repr

/-- The result of one palette look-up: a colour, or the error of that pixel (45_host_ops.md R195). -/
inductive Lookup where
  | color (c : Rgba)
  | error (e : Exn)
  deriving DecidableEq, Repr

/-- The events of the stream source and of the host (00_scope.md R12). -/
inductive Event where
  | pushByte (b : Byte)
  | endOfStream
  | clearDirty
  | readPixel (x y : Nat)
  | readPalette (i : Fin 16)
  | readStatus
  | resolve (x y : Nat)
  | resolveFrame
  | reset
  deriving DecidableEq, Repr

/-- What the core emits in answer to an event. -/
inductive Output where
  /-- The retire record of a packet (10_state.md R36). -/
  | retired (o : DecodeOutcome)
  /-- `EndOfStream` on a packet boundary: "a normal termination signal" (40_framer_dispatch.md R122). -/
  | cleanEnd
  /-- An exception, the result of the event that raised it (60_exceptions.md R213, R214). -/
  | raised (e : Exn)
  /-- The result of `ReadPixel` (45_host_ops.md R191). -/
  | pixel (v : Pixel)
  /-- The result of `ReadPalette` (45_host_ops.md R192). -/
  | palette (c : Rgb)
  /-- The result of `ReadStatus` (45_host_ops.md R193). -/
  | status (dirty : Bool) (session : Session) (cnt : Fin 24)
  /-- The result of a `Resolve` that found a colour (45_host_ops.md R194). -/
  | resolved (c : Rgba)
  /-- The result of `ResolveFrame`, one row of 288 results for each of the 192 rows (45_host_ops.md R195). -/
  | frame (rows : List (List Lookup))
  /-- An event that was not enabled: "returns the state unchanged and marks the event refused"
  (40_framer_dispatch.md R129). -/
  | refused (e : Event)
  deriving DecidableEq, Repr

/-- The state. The first six fields are the tuple of 10_state.md R20 ("There is nothing else"); the last two are the
model's own and hold what enters and leaves the machine (log entries 1 and 2). -/
structure State where
  /-- `BUF`: the bytes that hold a value, `BUF[0]` first; `BUF[k]` for `k` beyond the list holds no value (10_state.md R21). -/
  buf     : List Byte
  /-- `CNT`, 0..23 (10_state.md R23). -/
  cnt     : Fin 24
  /-- `SESSION` (10_state.md R24). -/
  session : Session
  /-- `PIX` (10_state.md R25). -/
  pix     : Memory
  /-- `PAL` (10_state.md R26). -/
  pal     : Vector Rgb 16
  /-- `DIRTY` (10_state.md R27). -/
  dirty   : Bool
  /-- The events issued and not yet taken, oldest first (00_scope.md R12). -/
  inbox   : List Event
  /-- The outputs emitted, oldest first. -/
  outbox  : List Output
  deriving DecidableEq, Repr

/-- Why the machine stops with a fault. -/
inductive Fault where
  /-- Raised by the retire of a packet when one of `BUF[0..23]` holds no value (93_implementation_defined.md U11:
  "A model that lets something read it must `fault`, not return 0"). Safe: no state in which `BUF` holds exactly
  `CNT` bytes, so no state a run reaches, raises it. -/
  | bufferHoldsNoValue
  deriving DecidableEq, Repr

/-- Why the model gives a step no meaning. -/
inductive Refusal where
  /-- Raised by exec's arm of an instruction that has no meaning in the model. Safe: the machine stops. -/
  | notModelled (mnemonic : String)
  deriving DecidableEq, Repr

/-- Black, the value of every palette entry after reset (10_state.md R37). -/
def black : Rgb := { r := 0, g := 0, b := 0 }

/-- The state after `Reset` (10_state.md R37, 70_reset_and_hazards.md R235): no byte buffered, session running, every
pixel 0 (nothing is listed, and an unlisted cell reads as 0), every palette entry black, not dirty. No event is
pending and nothing has been emitted. -/
def State.reset : State :=
  { buf := []
    cnt := 0
    session := .run
    pix := []
    pal := Vector.replicate 16 black
    dirty := false
    inbox := []
    outbox := [] }

end Sys2Proof.Machine
end

