-- ==== Sys2Proof/Machine/Flags.lean ====
section
/-! DEFINITION. `DIRTY`, the hardware's only flag (10_state.md R27), and the numeric codes of the status fields. -/

namespace Sys2Proof.Machine

/-- `DIRTY <- 1`, the one side effect of `PixWrite` and `PalWrite`, whatever the value written
(00_scope.md R7, 20_memory.md R64, 92_eei_decisions.md D7; log entry 10). -/
def State.setDirty (s : State) : State := { s with dirty := true }

/-- `DIRTY <- 0`, done by the host's `ClearDirty` only (45_host_ops.md R190). -/
def State.clearDirty (s : State) : State := { s with dirty := false }

/-- The numeric value of `SESSION` in `ReadStatus` (10_state.md R32). -/
def Session.code : Session → BitVec 2
  | .run => 0
  | .done => 1
  | .err => 2

/-- The numeric code of an exception (60_exceptions.md R205). -/
def Exn.code : Exn → Nat
  | .shortRead _ => 1
  | .paletteIndexOutOfRange _ _ _ => 2

end Sys2Proof.Machine
end

