-- ==== Sys2Proof/Machine/Ops.lean ====
section
/-! DEFINITION. The named operations over the pixel RAM, the palette RAM, the framer's buffer and the outputs;
taking an exception; reset, the only way out of one. -/

namespace Sys2Proof.Machine

/-! ### The pixel RAM as data -/

/-- What an unlisted cell reads as: the reset contents, "all pixels initialized to index 0" (10_state.md R37). -/
def blankPixel : Pixel := 0

/-- The cell at address `a`. -/
def Memory.read : Memory → Nat → Pixel
  | [], _ => blankPixel
  | (k, v) :: m, a => if a = k then v else Memory.read m a

/-- The memory with cell `a` set to `v`, in the canonical form again. -/
def Memory.write : Memory → Nat → Pixel → Memory
  | [], a, v => if v = blankPixel then [] else [(a, v)]
  | (k, w) :: m, a, v =>
    if a < k then (if v = blankPixel then (k, w) :: m else (a, v) :: (k, w) :: m)
    else if a = k then (if v = blankPixel then m else (a, v) :: m)
    else (k, w) :: Memory.write m a v

/-- The cells `a, a + 1, .., a + n - 1`, all holding `v`. -/
def Memory.span (v : Pixel) : Nat → Nat → Memory
  | _, 0 => []
  | a, n + 1 => (a, v) :: Memory.span v (a + 1) n

/-- Every cell holds `v`: what writing `v` to the 55296 cells one after another gives (41_preset.md R140). -/
def Memory.fill (v : Pixel) : Memory := if v = blankPixel then [] else Memory.span v 0 Config.nPix

/-- Addresses strictly rising from `lo`, inside the RAM, and no entry that reads as an unlisted one does. -/
def Memory.wfFrom (lo : Nat) : Memory → Bool
  | [] => true
  | (k, v) :: m => decide (lo ≤ k) && decide (k < Config.nPix) && decide (v ≠ blankPixel) && Memory.wfFrom (k + 1) m

/-- The canonical form of the pixel RAM. -/
def Memory.wf (m : Memory) : Bool := Memory.wfFrom 0 m

/-! ### Pixel addressing and access -/

/-- `addr(x, y) = y * W + x` for a coordinate inside the grid, and no address for one outside
(00_scope.md R7, 20_memory.md R51, R59: "No address outside 0..55295 is ever formed"). -/
def pixelAddr? (x y : Nat) : Option Nat :=
  if x < Config.width ∧ y < Config.height then some (y * Config.width + x) else none

/-- `PixRead(a)` (00_scope.md R7). -/
def State.pixRead (s : State) (a : Nat) : Pixel := s.pix.read a

/-- `PixWrite(a, v)`: writes the cell and sets `DIRTY` (00_scope.md R7). -/
def State.pixWrite (s : State) (a : Nat) (v : Pixel) : State := { s with pix := s.pix.write a v }.setDirty

/-- `PixWrite(a, v)` for every `a` in 0..55295: fills the RAM and sets `DIRTY` (41_preset.md R140). -/
def State.pixFill (s : State) (v : Pixel) : State := { s with pix := Memory.fill v }.setDirty

/-! ### The palette RAM -/

/-- `PalRead(i)` (00_scope.md R7). -/
def State.palRead (s : State) (i : Fin 16) : Rgb := s.pal[i]

/-- `PalWrite(i, c)`: writes the entry and sets `DIRTY` (00_scope.md R7). -/
def State.palWrite (s : State) (i : Fin 16) (c : Rgb) : State := { s with pal := s.pal.set i c }.setDirty

/-! ### The framer's buffer -/

/-- `BUF[CNT] <- b`: the bytes before `CNT` stay, and no byte after it holds a value (40_framer_dispatch.md R120). -/
def State.storeByte (s : State) (b : Byte) : State := { s with buf := s.buf.take s.cnt ++ [b] }

/-- `CNT <- n`. -/
def State.setCnt (s : State) (n : Fin 24) : State := { s with cnt := n }

/-- `CNT <- 0`, after which `BUF` holds no value (40_framer_dispatch.md R121, R131). -/
def State.emptyBuffer (s : State) : State := { s with buf := [], cnt := 0 }

/-- `SESSION <- v`. -/
def State.setSession (s : State) (v : Session) : State := { s with session := v }

/-! ### Inputs and outputs -/

/-- One event taken: `rest` is what is left. -/
def State.setInbox (s : State) (rest : List Event) : State := { s with inbox := rest }

/-- One output emitted. -/
def State.emit (s : State) (o : Output) : State := { s with outbox := s.outbox ++ [o] }

/-- The answer to an event that is not enabled: no state change, the event is marked refused
(40_framer_dispatch.md R129, 92_eei_decisions.md D20, D21; log entry 4). -/
def State.refuse (s : State) (e : Event) : State := s.emit (.refused e)

/-- The end of one packet's handling: `CNT <- 0`, and the retire record is emitted (40_framer_dispatch.md R121). -/
def State.retire (s : State) (o : DecodeOutcome) : State := s.emptyBuffer.emit (.retired o)

/-! ### Exceptions -/

/-- What taking an exception does to `SESSION`: `ShortRead` sets `ERR`, `PaletteIndexOutOfRange` changes nothing
(60_exceptions.md R205, R213, R214). -/
def Exn.sessionAfter (e : Exn) (v : Session) : Session :=
  match e with
  | .shortRead _ => .err
  | .paletteIndexOutOfRange _ _ _ => v

/-- TAKING AN EXCEPTION. Nothing is saved and control goes nowhere: there is no handler, vector or saved register
(60_exceptions.md R213, R214). The exception is the result of the event that raised it; `SESSION` becomes what
`Exn.sessionAfter` says and everything else is kept. -/
def State.raise (s : State) (e : Exn) : State := (s.setSession (e.sessionAfter s.session)).emit (.raised e)

/-- `Reset`, the only exit from `SESSION = ERR`: there is no return from an exception (60_exceptions.md R215). Every
element of 10_state.md R20 takes its reset value; the events still to come and the outputs already emitted are not
the machine's and stay (70_reset_and_hazards.md R235). -/
def State.resetEvent (s : State) : State := { State.reset with inbox := s.inbox, outbox := s.outbox }

end Sys2Proof.Machine
end

