-- ==== Sys2Proof/Machine/Operands.lean ====
section
/-! DEFINITION. The operand forms: a tile's cells, a palette half's entries, the expansion of a colour, and the
decoded form of an instruction that a retire record shows. -/

namespace Sys2Proof.Machine

/-! ### Colours -/

/-- `x17(n) = n * 17`, an 8-bit result (30_encoding.md R91). -/
def x17 (n : Nibble) : Byte := n.setWidth 8 * Config.expand

/-- The resolved colour of an RGB444 entry (30_encoding.md R90, R91). -/
def resolveEntry (e : Rgb444) : Rgb :=
  { r := x17 (e.extractLsb' 8 4), g := x17 (e.extractLsb' 4 4), b := x17 (e.extractLsb' 0 4) }

/-- The eight resolved colours of a colour-table load (10_state.md R34). -/
def resolveEntries (es : ClutEntries) : Vector Rgb 8 :=
  #v[resolveEntry es[0], resolveEntry es[1], resolveEntry es[2], resolveEntry es[3], resolveEntry es[4],
    resolveEntry es[5], resolveEntry es[6], resolveEntry es[7]]

/-! ### Palette halves -/

/-- The half of the palette a load writes (30_encoding.md R103). -/
inductive PalHalf where
  | low
  | high
  deriving DecidableEq, Repr

/-- `offset`: 0 or 8 (30_encoding.md R103). -/
def PalHalf.offset : PalHalf → Nat
  | .low => 0
  | .high => 8

/-- Palette index `offset + i`, which is never out of range (44_color_table.md R176). -/
def PalHalf.slot (h : PalHalf) (i : Fin 8) : Fin 16 :=
  ⟨h.offset + i, by cases h <;> simp only [PalHalf.offset] <;> omega⟩

/-- `for i in 0 .. 7: PalWrite(offset + i, colors[i])` (44_color_table.md R175, R176). -/
def State.loadHalf (s : State) (h : PalHalf) (colors : Vector Rgb 8) : State :=
  (List.finRange 8).foldl (fun t i => t.palWrite (h.slot i) colors[i]) s

/-! ### Tiles -/

/-- `x0 = column * 6`, with no truncation (30_encoding.md R88). -/
def tileX0 (b : TileBlock) : Nat := b.column.toNat * Config.tileW

/-- `y0 = row * 12`, with no truncation (30_encoding.md R88). -/
def tileY0 (b : TileBlock) : Nat := b.row.toNat * Config.tileH

/-- The colour operand of cell `(cx, cy)`: bit `5 - cx` of mask row `cy` selects `color1` or `color0`
(30_encoding.md R89, 42_tile_block.md R156). -/
def cellColor (b : TileBlock) (cx : Fin 6) (cy : Fin 12) : Pixel :=
  if b.mask[cy].getLsbD (5 - cx.val) then b.color1 else b.color0

/-- The 72 cells of a tile in the order of the cell walk (42_tile_block.md R152). -/
def tileCoords : List (Fin 6 × Fin 12) :=
  (List.finRange 12).flatMap fun cy => (List.finRange 6).map fun cx => (cx, cy)

/-- The address and colour operand of one cell, none if it lies outside the grid (42_tile_block.md R152). -/
def tileCell? (b : TileBlock) (c : Fin 6 × Fin 12) : Option (Nat × Pixel) :=
  (pixelAddr? (tileX0 b + c.1) (tileY0 b + c.2)).map fun a => (a, cellColor b c.1 c.2)

/-- The cell walk: the cells of the tile that lie inside the grid, each with its colour operand; the others are
skipped (42_tile_block.md R152, 20_memory.md R59). -/
def tileCells (b : TileBlock) : List (Nat × Pixel) := tileCoords.filterMap (tileCell? b)

/-- `cell_op` of `TILE`: `PixWrite(a, c)` (42_tile_block.md R150). -/
def State.overwriteCell (s : State) (cell : Nat × Pixel) : State := s.pixWrite cell.1 cell.2

/-- `cell_op` of `TILEX`: `PixWrite(a, PixRead(a) ^ c)`, on all 6 bits (42_tile_block.md R151). -/
def State.xorCell (s : State) (cell : Nat × Pixel) : State := s.pixWrite cell.1 (s.pixRead cell.1 ^^^ cell.2)

/-! ### The decoded form of an instruction -/

/-- The retire record of a packet that decodes to `i` (10_state.md R34, R35; 30_encoding.md R92). -/
def outcomeOf : Instr → DecodeOutcome
  | .memPre color reps => .instruction (.memoryPreset color reps)
  | .border => .instruction .borderPreset
  | .tile b => .instruction (.tileBlock b false)
  | .scrlP f => .instruction (.scroll f false)
  | .scrlC f => .instruction (.scroll f true)
  | .transp => .instruction .transparentColor
  | .clutLo es => .instruction (.colorTableLoad PalHalf.low.offset (resolveEntries es))
  | .clutHi es => .instruction (.colorTableLoad PalHalf.high.offset (resolveEntries es))
  | .tileX b => .instruction (.tileBlock b true)
  | .unsup code => .unsupported code
  | .notCmd => .notACommand

end Sys2Proof.Machine
end

