-- ==== Sys2Proof/Machine/ColorTable.lean ====
section
/-! DEFINITION. `CLUTLO` and `CLUTHI` (44_color_table.md). -/

namespace Sys2Proof.Machine

/-- `CLUTLO`: `PAL[0..7]` take the eight resolved colours (44_color_table.md R175). -/
def execClutLo (es : ClutEntries) (s : State) : Host.Outcome State Fault Refusal :=
  .next (s.loadHalf .low (resolveEntries es))

/-- `CLUTHI`: `PAL[8..15]` take the eight resolved colours (44_color_table.md R176). -/
def execClutHi (es : ClutEntries) (s : State) : Host.Outcome State Fault Refusal :=
  .next (s.loadHalf .high (resolveEntries es))

end Sys2Proof.Machine
end

