-- ==== Sys2Proof/Machine/NoInstruction.lean ====
section
/-! DEFINITION. The two outcomes that are no instruction, `UNSUP` and `NOTCMD`: ordinary retires that change nothing
(40_framer_dispatch.md R127, R128; 60_exceptions.md R208). -/

namespace Sys2Proof.Machine

/-- `UNSUP`: no state change; the record carries the code (40_framer_dispatch.md R128). -/
def execUnsup (_code : BitVec 6) (s : State) : Host.Outcome State Fault Refusal := .next s

/-- `NOTCMD`: no state change (40_framer_dispatch.md R127). -/
def execNotCmd (s : State) : Host.Outcome State Fault Refusal := .next s

end Sys2Proof.Machine
end

