-- ==== Sys2Proof/Machine/Preset.lean ====
section
/-! DEFINITION. `MEMPRE` and `BORDER` (41_preset.md). A meaning is `apply` of the instruction (00_scope.md R13); the
retire around it is the framer's (40_framer_dispatch.md R121). -/

namespace Sys2Proof.Machine

/-- `MEMPRE color, repeat`: every cell takes `color`; `repeat` changes nothing (41_preset.md R140). -/
def execMemPre (color _reps : Nibble) (s : State) : Host.Outcome State Fault Refusal :=
  .next (s.pixFill (color.setWidth 6))

/-- `BORDER`: an explicit no-op transition (41_preset.md R141; log entry 13). -/
def execBorder (s : State) : Host.Outcome State Fault Refusal := .next s

end Sys2Proof.Machine
end

