-- ==== Sys2Proof/Machine/Scroll.lean ====
section
/-! DEFINITION. `SCRLP`, `SCRLC` and `TRANSP` (43_scroll_transparent.md): decoded in full, with explicit transitions
that change nothing (R165, 92_eei_decisions.md D23; log entry 13). -/

namespace Sys2Proof.Machine

/-- `SCRLP`: no pixel moves; the operands appear in the retire record only (43_scroll_transparent.md R166). -/
def execScrlP (_f : ScrollFields) (s : State) : Host.Outcome State Fault Refusal := .next s

/-- `SCRLC`: as `SCRLP` (43_scroll_transparent.md R167). -/
def execScrlC (_f : ScrollFields) (s : State) : Host.Outcome State Fault Refusal := .next s

/-- `TRANSP`: no effect; alpha stays 255 for every pixel (43_scroll_transparent.md R168). -/
def execTransp (s : State) : Host.Outcome State Fault Refusal := .next s

end Sys2Proof.Machine
end

