-- ==== Sys2Proof/Machine/Tile.lean ====
section
/-! DEFINITION. `TILE` and `TILEX` (42_tile_block.md). -/

namespace Sys2Proof.Machine

/-- `TILE`: each cell of the tile inside the grid takes its colour operand (42_tile_block.md R150, R152). -/
def execTile (b : TileBlock) (s : State) : Host.Outcome State Fault Refusal :=
  .next ((tileCells b).foldl State.overwriteCell s)

/-- `TILEX`: each cell of the tile inside the grid is exclusive-ored with its colour operand
(42_tile_block.md R151, R152). -/
def execTileX (b : TileBlock) (s : State) : Host.Outcome State Fault Refusal :=
  .next ((tileCells b).foldl State.xorCell s)

end Sys2Proof.Machine
end

