-- ==== Sys2Proof/Machine/Dispatch.lean ====
section
/-! DEFINITION. The dispatch: one arm per constructor of Instr, each a direct call of its meaning. -/

namespace Sys2Proof.Machine

def exec (i : Instr) (s : State) : Host.Outcome State Fault Refusal :=
  match i with
  | .memPre color reps => Sys2Proof.Machine.execMemPre color reps s
  | .border => Sys2Proof.Machine.execBorder s
  | .tile b => Sys2Proof.Machine.execTile b s
  | .scrlP f => Sys2Proof.Machine.execScrlP f s
  | .scrlC f => Sys2Proof.Machine.execScrlC f s
  | .transp => Sys2Proof.Machine.execTransp s
  | .clutLo es => Sys2Proof.Machine.execClutLo es s
  | .clutHi es => Sys2Proof.Machine.execClutHi es s
  | .tileX b => Sys2Proof.Machine.execTileX b s
  | .unsup code => Sys2Proof.Machine.execUnsup code s
  | .notCmd => Sys2Proof.Machine.execNotCmd s

end Sys2Proof.Machine
end

