-- ==== Sys2Proof/Machine/Framer.lean ====
section
/-! DEFINITION. The packet framer and the stream source's events (40_framer_dispatch.md). -/

namespace Sys2Proof.Machine

/-- One packet decoded, applied and retired (40_framer_dispatch.md R121; the whole effect of the derived event
`PushPacket`, R132). -/
def applyPacket (p : Packet) (s : State) : Host.Outcome State Fault Refusal :=
  match exec (decode p) s with
  | .next t => .next (t.retire (outcomeOf (decode p)))
  | .fault f => .fault f
  | .refused r => .refused r

/-- The retire of the packet that `BUF` holds; a byte that holds no value is not read
(93_implementation_defined.md U11). -/
def retirePacket (s : State) : Host.Outcome State Fault Refusal :=
  match Packet.ofBytes s.buf with
  | some p => applyPacket p s
  | none => .fault .bufferHoldsNoValue

/-- `PushByte(b)`: the byte is stored and counted, or completes a packet, which is framed, decoded, applied and
retired inside this one event (40_framer_dispatch.md R120, R121); refused outside `RUN` (R129). -/
def pushByte (b : Byte) (s : State) : Host.Outcome State Fault Refusal :=
  if s.session = .run then
    if h : s.cnt.val + 1 < Config.pktLen then .next ((s.storeByte b).setCnt ⟨s.cnt.val + 1, h⟩)
    else retirePacket (s.storeByte b)
  else .next (s.refuse (.pushByte b))

/-- `EndOfStream`: a clean end on a packet boundary, `ShortRead` inside a packet (40_framer_dispatch.md R122);
refused outside `RUN` (R129). -/
def endOfStream (s : State) : Host.Outcome State Fault Refusal :=
  if s.session = .run then
    if s.cnt.val = 0 then .next ((s.setSession .done).emit .cleanEnd)
    else .next (s.raise (.shortRead s.cnt.val))
  else .next (s.refuse .endOfStream)

/-- Packets applied one after another, in stream order (20_memory.md R66, 40_framer_dispatch.md R130). -/
def applyPackets : List Packet → State → Host.Outcome State Fault Refusal
  | [], s => .next s
  | p :: ps, s =>
    match applyPacket p s with
    | .next t => applyPackets ps t
    | .fault f => .fault f
    | .refused r => .refused r

/-- How `frame` ends (40_framer_dispatch.md R124). -/
inductive StreamEnd where
  | cleanEnd
  | shortRead (left : Nat)
  deriving DecidableEq, Repr

/-- `frame(s)`: `pkt_j = s[24j .. 24j + 23]`, and the end that the left-over length gives
(40_framer_dispatch.md R124). -/
def frame (bs : List Byte) : List (List Byte) × StreamEnd :=
  ((List.range (bs.length / Config.pktLen)).map fun j => (bs.drop (Config.pktLen * j)).take Config.pktLen,
    if bs.length % Config.pktLen = 0 then .cleanEnd else .shortRead (bs.length % Config.pktLen))

end Sys2Proof.Machine
end

