-- ==== Sys2Proof/Machine/HostOps.lean ====
section
/-! DEFINITION. The host's operations and the resolve path (45_host_ops.md). All are enabled in every `SESSION` and
between any two bytes of a packet (R197); the reads change nothing and emit their result (20_memory.md R64). -/

namespace Sys2Proof.Machine

/-- The colour of a palette entry, always opaque (45_host_ops.md R194, 92_eei_decisions.md D5; log entry 14). -/
def opaqueColor (c : Rgb) : Rgba := { r := c.r, g := c.g, b := c.b, a := Config.alphaOpaque }

/-- The look-up of index `idx`, found at `(x, y)`: an index above 15 is an error, never wrapped or clamped
(45_host_ops.md R194, 60_exceptions.md R207). -/
def State.lookupIndex (s : State) (x y : Nat) (idx : Pixel) : Lookup :=
  if h : idx.toNat < 16 then .color (opaqueColor (s.palRead ⟨idx.toNat, h⟩))
  else .error (.paletteIndexOutOfRange x y idx)

/-- `Resolve(x, y)` as a function; none for a coordinate outside the grid (45_host_ops.md R194). -/
def State.resolve? (s : State) (x y : Nat) : Option Lookup :=
  (pixelAddr? x y).map fun a => s.lookupIndex x y (s.pixRead a)

/-- The grid `out[y][x]` of `ResolveFrame` (45_host_ops.md R195). -/
def State.frameRows (s : State) : List (List Lookup) :=
  (List.range Config.height).map fun y =>
    (List.range Config.width).map fun x => s.lookupIndex x y (s.pixRead (y * Config.width + x))

/-- `ClearDirty` (45_host_ops.md R190). -/
def hostClearDirty (s : State) : State := s.clearDirty

/-- `ReadPixel(x, y)`; refused outside the grid (45_host_ops.md R191). -/
def hostReadPixel (x y : Nat) (s : State) : State :=
  match pixelAddr? x y with
  | some a => s.emit (.pixel (s.pixRead a))
  | none => s.refuse (.readPixel x y)

/-- `ReadPalette(i)` (45_host_ops.md R192). -/
def hostReadPalette (i : Fin 16) (s : State) : State := s.emit (.palette (s.palRead i))

/-- `ReadStatus` (45_host_ops.md R193). -/
def hostReadStatus (s : State) : State := s.emit (.status s.dirty s.session s.cnt)

/-- `Resolve(x, y)`: a colour, or the exception raised; refused outside the grid (45_host_ops.md R194). -/
def hostResolve (x y : Nat) (s : State) : State :=
  match s.resolve? x y with
  | some (.color c) => s.emit (.resolved c)
  | some (.error e) => s.raise e
  | none => s.refuse (.resolve x y)

/-- `ResolveFrame` (45_host_ops.md R195). -/
def hostResolveFrame (s : State) : State := s.emit (.frame s.frameRows)

/-- `Reset` (70_reset_and_hazards.md R235). -/
def hostReset (s : State) : State := s.resetEvent

/-- Power-on: before the first `Reset` no state element holds a value and no event but `Reset` is enabled; that
`Reset` gives the state after reset (70_reset_and_hazards.md R235, 93_implementation_defined.md U10; log entry 16). -/
def powerOn : Event → Option State
  | .reset => some State.reset
  | _ => none

end Sys2Proof.Machine
end

