-- ==== Sys2Proof/Machine/Events.lean ====
section
/-! DEFINITION. What the core does on one event (00_scope.md R12). -/

namespace Sys2Proof.Machine

/-- The core's reaction to one event, complete before the next event is taken (00_scope.md R11, R12). -/
def react (e : Event) (s : State) : Host.Outcome State Fault Refusal :=
  match e with
  | .pushByte b => pushByte b s
  | .endOfStream => endOfStream s
  | .clearDirty => .next (hostClearDirty s)
  | .readPixel x y => .next (hostReadPixel x y s)
  | .readPalette i => .next (hostReadPalette i s)
  | .readStatus => .next (hostReadStatus s)
  | .resolve x y => .next (hostResolve x y s)
  | .resolveFrame => .next (hostResolveFrame s)
  | .reset => .next (hostReset s)

/-- The bytes of the next packet already buffered, all but the last, which is the next event. -/
def State.loadPacketBytes (s : State) (bs : List Byte) : State :=
  { s with
    buf := bs.take (Config.pktLen - 1)
    cnt := ⟨Config.pktLen - 1, by decide⟩
    session := .run
    inbox := (bs.drop (Config.pktLen - 1)).map .pushByte ++ s.inbox }

end Sys2Proof.Machine
end

