-- ==== Sys2Proof/Machine/Step.lean ====
section
/-! DEFINITION. One step of the machine: the oldest pending event is taken and reacted to. -/

namespace Sys2Proof.Machine

/-- One step. The core has no step of its own (00_scope.md R12 (b)): with no pending event it is idle and the state
stays as it is (60_exceptions.md R231; log entry 3). -/
def step (s : State) : Host.Outcome State Fault Refusal :=
  match s.inbox with
  | [] => .next s
  | e :: rest => react e (s.setInbox rest)

/-- `s` with a packet placed where the next step takes its instruction: the packet arrives as bytes, so the first 23
lie in `BUF`, the session runs, and the 24th is the next event (log entry 18). -/
def State.withFetchWord (s : State) (nbits w : Nat) : State := s.loadPacketBytes (tableWordBytes nbits w)

end Sys2Proof.Machine
end

