-- ==== Sys2Proof/Machine/Assembly.lean ====
section
/-! DEFINITION. The assembler's lines and directives as the stream events they expand to (30_encoding.md R98, R100,
R101). Not part of the machine: the notation in which a stream is written down. -/

namespace Sys2Proof.Machine

/-- One line of the notation of 30_encoding.md R98 and R101. -/
inductive AsmLine where
  /-- An instruction line: its canonical packet. -/
  | instr (i : Instr)
  /-- `NOP`: the packet of 24 zero bytes. -/
  | nop
  /-- `.notcmd c, n`. -/
  | notcmd (c n : Byte)
  /-- `.unsup code`. -/
  | unsup (code : BitVec 6)
  /-- `.packet b0 .. b23`. -/
  | packet (p : Packet)
  /-- `.bytes b0 ..`. -/
  | bytes (bs : List Byte)
  /-- `.eos`. -/
  | eos
  /-- `CLS color`, which is `MEMPRE color, 0`. -/
  | cls (color : Nibble)
  deriving DecidableEq, Repr

/-- The events of one line (30_encoding.md R101). -/
def AsmLine.expand : AsmLine → List Event
  | .instr i => (encode i).map .pushByte
  | .nop => nopPacket.toBytes.map .pushByte
  | .notcmd c n => { nopPacket with command := c, instruction := n }.toBytes.map .pushByte
  | .unsup code => (encode (.unsup code)).map .pushByte
  | .packet p => p.toBytes.map .pushByte
  | .bytes bs => bs.map .pushByte
  | .eos => [.endOfStream]
  | .cls color => (encode (.memPre color 0)).map .pushByte

/-- The events of a program, in order. -/
def assemble (lines : List AsmLine) : List Event := lines.flatMap AsmLine.expand

end Sys2Proof.Machine
end

