-- ==== Sys2Proof/Safety.lean ====
section
/-! DEFINITION. What a good state and a good run are, in the terms the statements use. -/

namespace Sys2Proof

/-- Every channel of a colour is one of the 16 values `17 * n` (10_state.md R29). -/
def Rgb.expanded (c : Rgb) : Bool := c.r.toNat % 17 == 0 && c.g.toNat % 17 == 0 && c.b.toNat % 17 == 0

end Sys2Proof

namespace Sys2Proof.Machine

/-- The framer invariant: `BUF` holds exactly `CNT` bytes (10_state.md R21), `DONE` implies `CNT = 0` and `ERR` implies
`CNT >= 1` (10_state.md R30). -/
structure State.FramerInv (s : State) : Prop where
  held : s.buf.length = s.cnt.val
  done : s.session = .done → s.cnt.val = 0
  err  : s.session = .err → 1 ≤ s.cnt.val

/-- The invariant of the machine: the framer's (10_state.md R30), the canonical form of the pixel RAM, and the
palette-value closure (10_state.md R29). -/
structure State.Inv (s : State) : Prop where
  framer  : s.FramerInv
  pixels  : s.pix.wf = true
  palette : ∀ i : Fin 16, s.pal[i].expanded = true

/-- `n` steps, stopping at the first fault or refusal: `Host.Core.run` of the machine, over the model's own types. -/
def runSteps : Nat → State → Host.Outcome State Fault Refusal
  | 0, s => .next s
  | n + 1, s =>
    match step s with
    | .next t => runSteps n t
    | .fault f => .fault f
    | .refused r => .refused r

/-- The stream was decoded: the one successful end of a session (40_framer_dispatch.md R123). -/
def State.decoded (s : State) : Bool := decide (s.session = .done)

/-- The session is over: stream events are no longer enabled (40_framer_dispatch.md R123). -/
def State.over (s : State) : Bool := decide (s.session ≠ .run)

/-- The instructions that perform a write, and so set `DIRTY`: `MEMPRE`, `CLUTLO` and `CLUTHI` always, `TILE` and
`TILEX` when the tile lies inside the grid (10_state.md R27, 42_tile_block.md R153). -/
def performsWrite : Instr → Bool
  | .memPre _ _ => true
  | .clutLo _ => true
  | .clutHi _ => true
  | .tile b => decide (b.column.toNat ≤ 47) && decide (b.row.toNat ≤ 15)
  | .tileX b => decide (b.column.toNat ≤ 47) && decide (b.row.toNat ≤ 15)
  | .border => false
  | .scrlP _ => false
  | .scrlC _ => false
  | .transp => false
  | .unsup _ => false
  | .notCmd => false

/-- The cell at a coordinate of the grid, as `ReadPixel` returns it (45_host_ops.md R191). -/
def State.pixelAt (s : State) (x y : Nat) : Pixel := s.pixRead (y * Config.width + x)

end Sys2Proof.Machine
end

