-- ==== Sys2Proof/Certificates/Slice0/Obligations.lean ====
section
/-! DEFINITION. The statements for the provers. Each docstring names the rule it formalises. Where a rule rests on a
decision the spec marks as its own (92_eei_decisions.md) or on a choice of this model (notes/assumptions), the docstring
says so and the statement has basis 'derived'. A statement about the effect of an instruction gives the whole next
state, so it is its frame too: every field not named in the update is unchanged. -/

namespace Sys2Proof.Machine

/-! ### The vocabulary of the statements -/

/-- The fields of format `TB` in numbers (30_encoding.md R85). -/
def TileFieldsAre (p : Packet) (b : TileBlock) : Prop :=
  b.color0.toNat = p.payload[0].toNat % 64 ∧ b.color1.toNat = p.payload[1].toNat % 64 ∧
  b.row.toNat = p.payload[2].toNat % 32 ∧ b.column.toNat = p.payload[3].toNat % 64 ∧
  ∀ cy : Fin 12, b.mask[cy].toNat = p.payload[4 + cy.val].toNat % 64

/-- The fields of format `SC` in numbers (30_encoding.md R86, R102). -/
def ScrollFieldsAre (p : Packet) (f : ScrollFields) : Prop :=
  f.color.toNat = p.payload[0].toNat % 16 ∧
  f.hCmd.toNat = p.payload[1].toNat % 64 / 16 ∧ f.hOffset.toNat = p.payload[1].toNat % 8 ∧
  f.vCmd.toNat = p.payload[2].toNat % 64 / 16 ∧ f.vOffset.toNat = p.payload[2].toNat % 16

/-- The entries of format `CT` in numbers, under `CONCAT` (30_encoding.md R90). -/
def EntriesAre (p : Packet) (es : ClutEntries) : Prop :=
  ∀ i : Fin 8, es[i].toNat = p.payload[2 * i.val].toNat % 64 * 64 + p.payload[2 * i.val + 1].toNat % 64

/-- `c` is the resolved colour of the RGB444 entry `e`: each nibble times 17 (30_encoding.md R90, R91). -/
def ColorOf (e : Rgb444) (c : Rgb) : Prop :=
  c.r.toNat = e.toNat / 256 * 17 ∧ c.g.toNat = e.toNat / 16 % 16 * 17 ∧ c.b.toNat = e.toNat % 16 * 17

/-- The pixel `(x, y)` belongs to the tile (30_encoding.md R88). -/
def InTile (b : TileBlock) (x y : Nat) : Prop := x / 6 = b.column.toNat ∧ y / 12 = b.row.toNat

/-- The colour operand of the cell that the pixel `(x, y)` of the tile is (30_encoding.md R89). -/
def colorAt (b : TileBlock) (x y : Nat) : Pixel :=
  if b.mask[Fin.ofNat 12 y].getLsbD (5 - x % 6) then b.color1 else b.color0

/-- The tile lies inside the grid (20_memory.md R60). -/
def insideGrid (b : TileBlock) : Bool := decide (b.column.toNat ≤ 47) && decide (b.row.toNat ≤ 15)

/-- Both are command packets with the same instruction code. -/
def SameOpcode (p q : Packet) : Prop :=
  p.command.toNat % 64 = 9 ∧ q.command.toNat % 64 = 9 ∧ p.instruction.toNat % 64 = q.instruction.toNat % 64

end Sys2Proof.Machine

open Sys2Proof Sys2Proof.Machine

/-! ### Encoding and decoding -/

/-- "Decoding the canonical packet gives back the operands written" (30_encoding.md R100, which the spec marks as
derived), for every instruction and every operand value; the `CT` formats rest on `CLUT_REPACK = CONCAT` (log entry 9). -/
def Obligations.DecodeOfEncodeIsIdentity : Prop :=
  ∀ i : Instr, i.wellFormed = true → decodeBytes (encode i) = .ok (i, [])

/-- Whatever 24 bytes arrive, the decoder gives a well-formed instruction (30_encoding.md R93, R94). -/
def Obligations.DecodedInstructionIsWellFormed : Prop :=
  ∀ p : Packet, (decode p).wellFormed = true

/-- The decoder rejects exactly the inputs that hold no whole packet (30_encoding.md R93; 40_framer_dispatch.md R122:
"No partial packet is ever returned"), and hands back the bytes after the packet. -/
def Obligations.OnlyShortInputIsRejected : Prop :=
  ∀ bs : List Byte,
    (24 ≤ bs.length → ∃ i, decodeBytes bs = .ok (i, bs.drop 24)) ∧
    (bs.length < 24 → decodeBytes bs = .error (.shortPacket bs.length))

/-- The command test is the sole criterion, and four command bytes pass it (30_encoding.md R81). -/
def Obligations.CommandTestIsTheSoleCriterion : Prop :=
  ∀ p : Packet,
    (decode p ≠ .notCmd ↔ p.command &&& 0x3F = 0x09) ∧
    (p.command &&& 0x3F = 0x09 ↔ p.command ∈ ([0x09, 0x49, 0x89, 0xC9] : List Byte))

/-- Format `MP` (30_encoding.md R84). -/
def Obligations.PresetFormatFields : Prop :=
  ∀ p : Packet, p.opw &&& 0x3F3F = 0x0901 →
    ∃ color reps, decode p = .memPre color reps ∧
      color.toNat = p.payload[0].toNat % 16 ∧ reps.toNat = p.payload[1].toNat % 16

/-- Format `TB`, and the `xor` field that tells the two codes apart (30_encoding.md R85). -/
def Obligations.TileFormatFields : Prop :=
  ∀ p : Packet,
    (p.opw &&& 0x3F3F = 0x0906 →
      ∃ b, decode p = .tile b ∧ TileFieldsAre p b ∧ outcomeOf (.tile b) = .instruction (.tileBlock b false)) ∧
    (p.opw &&& 0x3F3F = 0x0926 →
      ∃ b, decode p = .tileX b ∧ TileFieldsAre p b ∧ outcomeOf (.tileX b) = .instruction (.tileBlock b true))

/-- Format `CT` under `CLUT_REPACK = CONCAT` (30_encoding.md R87, R90, R103; the value of the parameter is the spec's
own decision, 92_eei_decisions.md D6, log entry 9), with the record's offset and colours. -/
def Obligations.ColorTableFormatEntries : Prop :=
  Config.clutRepack = .concat → ∀ p : Packet,
    (p.opw &&& 0x3F3F = 0x091E →
      ∃ es colors, decode p = .clutLo es ∧ EntriesAre p es ∧
        outcomeOf (.clutLo es) = .instruction (.colorTableLoad 0 colors) ∧ ∀ i : Fin 8, ColorOf es[i] colors[i]) ∧
    (p.opw &&& 0x3F3F = 0x091F →
      ∃ es colors, decode p = .clutHi es ∧ EntriesAre p es ∧
        outcomeOf (.clutHi es) = .instruction (.colorTableLoad 8 colors) ∧ ∀ i : Fin 8, ColorOf es[i] colors[i])

/-- The ignored bits (30_encoding.md R95, which the spec marks as derived): two packets that agree on the bits their
format lists decode to the same instruction, and so to the same record and the same effect. -/
def Obligations.IgnoredBitsHaveNoEffect : Prop :=
  ∀ p q : Packet,
    (p.command.toNat % 64 ≠ 9 → q.command.toNat % 64 ≠ 9 → decode p = decode q) ∧
    (SameOpcode p q → (∀ i : Fin 16, p.payload[i].toNat % 64 = q.payload[i].toNat % 64) → decode p = decode q) ∧
    (SameOpcode p q → p.instruction.toNat % 64 ∉ [1, 6, 20, 24, 30, 31, 38] → decode p = decode q) ∧
    (SameOpcode p q → p.instruction.toNat % 64 = 1 →
      p.payload[0].toNat % 16 = q.payload[0].toNat % 16 → p.payload[1].toNat % 16 = q.payload[1].toNat % 16 →
      decode p = decode q) ∧
    (SameOpcode p q → p.instruction.toNat % 64 ∈ [20, 24] →
      p.payload[0].toNat % 16 = q.payload[0].toNat % 16 →
      p.payload[1].toNat % 8 = q.payload[1].toNat % 8 → p.payload[1].toNat % 64 / 16 = q.payload[1].toNat % 64 / 16 →
      p.payload[2].toNat % 64 = q.payload[2].toNat % 64 → decode p = decode q) ∧
    (SameOpcode p q → p.instruction.toNat % 64 ∈ [6, 38] → p.payload[2].toNat % 32 = q.payload[2].toNat % 32 →
      (∀ i : Fin 16, i.val ≠ 2 → p.payload[i].toNat % 64 = q.payload[i].toNat % 64) → decode p = decode q)

/-- Framing 24 bytes and writing the five fields out reproduces them, and a packet is framed from its own bytes
(40_framer_dispatch.md R125). -/
def Obligations.FramingRoundTrips : Prop :=
  (∀ bs : List Byte, bs.length = 24 →
    ∃ p, Packet.ofBytes bs = some p ∧
      [p.command, p.instruction] ++ p.parityQ.toList ++ p.payload.toList ++ p.parityP.toList = bs) ∧
  ∀ p : Packet, Packet.ofBytes p.toBytes = some p

/-- Packets written out byte by byte in the spec (95_test_vectors.md S3, T46a, T60, T66, T33, P1, R101) decode to
what the spec says they stand for. A sanity statement on fixed words. The entries of the `CLUTHI` packet rest on
`CLUT_REPACK = CONCAT` (92_eei_decisions.md D6, log entry 9), and the code 0 read from the instruction byte 0xC0 on the
6-bit code of `Unsupported` (92_eei_decisions.md D13, log entry 15). -/
def Obligations.KnownPacketsDecode : Prop :=
  decodeBytes [0x09, 0x01, 0, 0, 0x03, 0, 0, 0, 0, 0, 0, 0, 0, 0, 0, 0, 0, 0, 0, 0, 0, 0, 0, 0] =
    .ok (.memPre 3 0, []) ∧
  decodeBytes [0x09, 0x06, 0, 0, 0x25, 0x0F, 0x01, 0x02, 0x2A, 0x2A, 0x2A, 0x2A, 0x2A, 0x2A, 0x2A, 0x2A, 0x2A, 0x2A,
      0x2A, 0x2A, 0, 0, 0, 0] =
    .ok (.tile { color0 := 37, color1 := 15, row := 1, column := 2, mask := Vector.replicate 12 0b101010 }, []) ∧
  decodeBytes [0x09, 0x14, 0, 0, 0x05, 0x23, 0x1B, 0, 0, 0, 0, 0, 0, 0, 0, 0, 0, 0, 0, 0, 0, 0, 0, 0] =
    .ok (.scrlP { color := 5, hCmd := 2, hOffset := 3, vCmd := 1, vOffset := 11 }, []) ∧
  decodeBytes [0x09, 0x1C, 0, 0, 0x3F, 0x3F, 0, 0, 0, 0, 0, 0, 0, 0, 0, 0, 0, 0, 0, 0, 0, 0, 0, 0] = .ok (.transp, []) ∧
  decodeBytes [0x09, 0x1F, 0, 0, 0x04, 0x11, 0x08, 0x22, 0x0C, 0x33, 0x11, 0x04, 0x22, 0x08, 0x33, 0x0C, 0x3B, 0x2E,
      0x1F, 0x31, 0, 0, 0, 0] =
    .ok (.clutHi #v[0x111, 0x222, 0x333, 0x444, 0x888, 0xCCC, 0xEEE, 0x7F1], []) ∧
  decodeBytes [0x09, 0xC0, 0, 0, 0x03, 0, 0, 0, 0, 0, 0, 0, 0, 0, 0, 0, 0, 0, 0, 0, 0, 0, 0, 0] = .ok (.unsup 0, []) ∧
  decodeBytes (List.replicate 24 0) = .ok (.notCmd, [])

/-- Each 4-bit nibble becomes `n * 17`, the nibble repeated; the resolved colour of entry `i` is its three nibbles
expanded (30_encoding.md R91). A pixel that resolves is fully opaque: R91 says so of loaded colours, and for entries
never loaded it is 92_eei_decisions.md D5, log entry 14. -/
def Obligations.NibbleExpansionIsTimesSeventeen : Prop :=
  (∀ n : Nibble, (x17 n).toNat = n.toNat * 17 ∧ x17 n = n ++ n) ∧
  (∀ (es : ClutEntries) (i : Fin 8), ColorOf es[i] (resolveEntries es)[i]) ∧
  ∀ (s : State) (x y : Nat) (c : Rgba), s.resolve? x y = some (.color c) → c.a = 255

/-! ### The instructions -/

/-- `MEMPRE` (41_preset.md R140): the encoding and the record; every cell takes `color`, whatever `repeat` says; `DIRTY`
is set always; nothing else changes; applying it again changes nothing more; after it every pixel resolves without
`PaletteIndexOutOfRange`. -/
def Obligations.MemPreFillsEveryPixel : Prop :=
  (∀ p : Packet, p.opw &&& 0x3F3F = 0x0901 →
    ∃ color reps, decode p = .memPre color reps ∧ color = (p.payload[0] &&& 0x0F).setWidth 4 ∧
      reps = (p.payload[1] &&& 0x0F).setWidth 4 ∧
      outcomeOf (.memPre color reps) = .instruction (.memoryPreset color reps)) ∧
  ∀ (color reps : Nibble) (s : State),
    ∃ m : Memory, exec (.memPre color reps) s = .next { s with pix := m, dirty := true } ∧ m.wf = true ∧
      (∀ a, a < 55296 → m.read a = color.setWidth 6) ∧
      exec (.memPre color reps) { s with pix := m, dirty := true } = .next { s with pix := m, dirty := true } ∧
      ∀ x y, x < 288 → y < 192 → ∃ c, State.resolve? { s with pix := m, dirty := true } x y = some (.color c)

/-- `MEMPRE` is the loop of its rule: one `PixWrite` for each of the 55296 addresses, in order (41_preset.md R140). The
model's fill and the spec's loop give the same state. -/
def Obligations.MemPreIsTheCellLoop : Prop :=
  ∀ (color reps : Nibble) (s : State), s.pix.wf = true →
    exec (.memPre color reps) s =
      .next ((List.range 55296).foldl (fun t a => t.pixWrite a (color.setWidth 6)) s)

/-- "after `MEMPRE` every pixel resolves without PaletteIndexOutOfRange" (41_preset.md R140), to the opaque colour of
entry `color` (alpha: 92_eei_decisions.md D5, log entry 14). -/
def Obligations.MemPreMakesEveryPixelResolvable : Prop :=
  ∀ (color reps : Nibble) (s : State),
    ∃ t, exec (.memPre color reps) s = .next t ∧
      ∀ x y, x < 288 → y < 192 →
        t.resolve? x y = some (.color
          { r := s.pal[color.toNat].r, g := s.pal[color.toNat].g, b := s.pal[color.toNat].b, a := 255 })

/-- `TILE`: each pixel of the tile takes its colour operand, every other pixel is unchanged; `DIRTY` is set when the
tile lies inside the grid (42_tile_block.md R150, R152, R153; 30_encoding.md R88, R89; the orientation of the grid is
92_eei_decisions.md D15, log entry 11, and `DIRTY` D7, log entry 10). -/
def Obligations.TileOverwritesItsCells : Prop :=
  ∀ (b : TileBlock) (s : State), s.pix.wf = true →
    ∃ m : Memory, exec (.tile b) s = .next { s with pix := m, dirty := s.dirty || insideGrid b } ∧ m.wf = true ∧
      (∀ a, 55296 ≤ a → m.read a = s.pix.read a) ∧
      ∀ x y, x < 288 → y < 192 →
        (InTile b x y → m.read (y * 288 + x) = colorAt b x y) ∧
        (¬ InTile b x y → m.read (y * 288 + x) = s.pix.read (y * 288 + x))

/-- `TILEX`: each pixel of the tile is exclusive-ored with its colour operand on all 6 bits, every other pixel is
unchanged; `DIRTY` as for `TILE` (42_tile_block.md R151, R152, R153; 92_eei_decisions.md D7, D15, log entries 10, 11). -/
def Obligations.TileXorsItsCells : Prop :=
  ∀ (b : TileBlock) (s : State), s.pix.wf = true →
    ∃ m : Memory, exec (.tileX b) s = .next { s with pix := m, dirty := s.dirty || insideGrid b } ∧ m.wf = true ∧
      (∀ a, 55296 ≤ a → m.read a = s.pix.read a) ∧
      ∀ x y, x < 288 → y < 192 →
        (InTile b x y → m.read (y * 288 + x) = s.pix.read (y * 288 + x) ^^^ colorAt b x y) ∧
        (¬ InTile b x y → m.read (y * 288 + x) = s.pix.read (y * 288 + x))

/-- A tile outside the grid changes nothing, `DIRTY` included, and raises nothing (42_tile_block.md R153, 20_memory.md
R59; that `DIRTY` keeps its value is 92_eei_decisions.md D7, log entry 10). -/
def Obligations.TileOutsideTheGridChangesNothing : Prop :=
  ∀ (b : TileBlock) (s : State), 48 ≤ b.column.toNat ∨ 16 ≤ b.row.toNat →
    exec (.tile b) s = .next s ∧ exec (.tileX b) s = .next s

/-- A tile is wholly inside or wholly outside: the walk has 72 cells with 72 distinct addresses of the RAM, or none
(20_memory.md R60, which the spec marks as derived; 42_tile_block.md R152). -/
def Obligations.TileIsWhollyInsideOrOutside : Prop :=
  ∀ b : TileBlock,
    (insideGrid b = true → (tileCells b).length = 72) ∧ (insideGrid b = false → tileCells b = []) ∧
    ((tileCells b).map Prod.fst).Nodup ∧ ∀ c ∈ tileCells b, c.1 < 55296

/-- The laws of the exclusive or (42_tile_block.md R154, which the spec marks as derived): twice the same `TILEX` is
the identity on `PIX` and `PAL`; two on the same tile commute; two with equal masks are one with the colours
exclusive-ored. -/
def Obligations.XorCompositionLaws : Prop :=
  ∀ (b c : TileBlock) (s : State), s.pix.wf = true →
    (∃ t u, exec (.tileX b) s = .next t ∧ exec (.tileX b) t = .next u ∧
      u = { s with dirty := s.dirty || insideGrid b }) ∧
    (c.row = b.row → c.column = b.column →
      ∃ t u v, exec (.tileX b) s = .next t ∧ exec (.tileX c) t = .next u ∧
        exec (.tileX c) s = .next v ∧ exec (.tileX b) v = .next u) ∧
    (c.row = b.row → c.column = b.column → c.mask = b.mask →
      ∃ t u, exec (.tileX b) s = .next t ∧ exec (.tileX c) t = .next u ∧
        exec (.tileX { b with color0 := b.color0 ^^^ c.color0, color1 := b.color1 ^^^ c.color1 }) s = .next u)

/-- `TILEX` on blank cells is `TILE`, and `TILE` followed by the same `TILEX` sets the tile to 0 (42_tile_block.md R155,
which the spec marks as derived). -/
def Obligations.TileThenXorBlanksTheTile : Prop :=
  ∀ (b : TileBlock) (s : State), s.pix.wf = true →
    ((∀ x y, x < 288 → y < 192 → InTile b x y → s.pix.read (y * 288 + x) = 0) →
      ∃ t, exec (.tileX b) s = .next t ∧ exec (.tile b) s = .next t) ∧
    ∃ t u, exec (.tile b) s = .next t ∧ exec (.tileX b) t = .next u ∧
      ∀ x y, x < 288 → y < 192 → InTile b x y → u.pix.read (y * 288 + x) = 0

/-- `BORDER` and `TRANSP`: recognised whatever the payload, retired under their own names, with no effect; alpha stays
255 for every pixel that resolves (30_encoding.md R83, 41_preset.md R141, 43_scroll_transparent.md R168). -/
def Obligations.BorderAndTransparentAreInert : Prop :=
  (∀ s : State, exec .border s = .next s ∧ exec .transp s = .next s) ∧
  (∀ (p : Packet) (s : State), p.opw &&& 0x3F3F = 0x0902 →
    decode p = .border ∧ applyPacket p s =
      .next { s with buf := [], cnt := 0, outbox := s.outbox ++ [.retired (.instruction .borderPreset)] }) ∧
  (∀ (p : Packet) (s : State), p.opw &&& 0x3F3F = 0x091C →
    decode p = .transp ∧ applyPacket p s =
      .next { s with buf := [], cnt := 0, outbox := s.outbox ++ [.retired (.instruction .transparentColor)] }) ∧
  ∀ (s : State) (x y : Nat) (c : Rgba), s.resolve? x y = some (.color c) → c.a = 255

/-- `SCRLP` and `SCRLC`: decoded in full, whatever the field values, reported in the record, with no effect
(30_encoding.md R86, R102; 43_scroll_transparent.md R166, R167). -/
def Obligations.ScrollIsDecodedAndInert : Prop :=
  (∀ (f : ScrollFields) (s : State), exec (.scrlP f) s = .next s ∧ exec (.scrlC f) s = .next s) ∧
  (∀ (p : Packet) (s : State), p.opw &&& 0x3F3F = 0x0914 →
    ∃ f, decode p = .scrlP f ∧ ScrollFieldsAre p f ∧ applyPacket p s =
      .next { s with buf := [], cnt := 0, outbox := s.outbox ++ [.retired (.instruction (.scroll f false))] }) ∧
  ∀ (p : Packet) (s : State), p.opw &&& 0x3F3F = 0x0918 →
    ∃ f, decode p = .scrlC f ∧ ScrollFieldsAre p f ∧ applyPacket p s =
      .next { s with buf := [], cnt := 0, outbox := s.outbox ++ [.retired (.instruction (.scroll f true))] }

/-- `CLUTLO` and `CLUTHI`: each writes its eight entries, in order, and leaves the other eight; `DIRTY` is set always
(44_color_table.md R175, R176; 92_eei_decisions.md D7, log entry 10). -/
def Obligations.ColorTableLoadsWriteTheirHalf : Prop :=
  ∀ (es : ClutEntries) (s : State),
    (∃ pal : Vector Rgb 16, exec (.clutLo es) s = .next { s with pal := pal, dirty := true } ∧
      ∀ i : Fin 8, ColorOf es[i] pal[i.val] ∧ pal[8 + i.val] = s.pal[8 + i.val]) ∧
    (∃ pal : Vector Rgb 16, exec (.clutHi es) s = .next { s with pal := pal, dirty := true } ∧
      ∀ i : Fin 8, ColorOf es[i] pal[8 + i.val] ∧ pal[i.val] = s.pal[i.val])

/-- The halves are disjoint: one load of each, in either order, gives the same state, with all 16 entries defined by the
two loads (44_color_table.md R177, which the spec marks as derived). -/
def Obligations.PaletteHalvesAreDisjoint : Prop :=
  ∀ (es fs : ClutEntries) (s : State),
    ∃ t u v, exec (.clutLo es) s = .next t ∧ exec (.clutHi fs) t = .next u ∧
      exec (.clutHi fs) s = .next v ∧ exec (.clutLo es) v = .next u ∧
      ∀ i : Fin 8, ColorOf es[i] u.pal[i.val] ∧ ColorOf fs[i] u.pal[8 + i.val]

/-- "a load cannot create an entry for 16..63": a pixel with such an index stays unresolvable (44_color_table.md R178,
which the spec marks as derived). -/
def Obligations.PaletteLoadCannotResolveHighIndex : Prop :=
  ∀ (es : ClutEntries) (s : State) (x y : Nat), x < 288 → y < 192 → 16 ≤ (s.pix.read (y * 288 + x)).toNat →
    ∀ i : Instr, i = .clutLo es ∨ i = .clutHi es →
      ∃ t, exec i s = .next t ∧
        t.resolve? x y = some (.error (.paletteIndexOutOfRange x y (s.pix.read (y * 288 + x))))

/-- `UNSUP`: one of the 55 other codes retires with the 6-bit code and changes nothing (40_framer_dispatch.md R128,
30_encoding.md R94; that the record carries the 6-bit code is 92_eei_decisions.md D13, log entry 15). -/
def Obligations.UnsupportedCodesChangeNothing : Prop :=
  (∀ (code : BitVec 6) (s : State), exec (.unsup code) s = .next s) ∧
  ∀ (p : Packet) (s : State), p.command &&& 0x3F = 0x09 →
    p.instruction.toNat % 64 ∉ [1, 2, 6, 20, 24, 28, 30, 31, 38] →
    ∃ code : BitVec 6, code.toNat = p.instruction.toNat % 64 ∧ decode p = .unsup code ∧ applyPacket p s =
      .next { s with buf := [], cnt := 0, outbox := s.outbox ++ [.retired (.unsupported code)] }

/-- `NOTCMD`: a packet that fails the command test retires as such, whatever its other 23 bytes hold, and changes
nothing (40_framer_dispatch.md R127). -/
def Obligations.NonCommandPacketsChangeNothing : Prop :=
  (∀ s : State, exec .notCmd s = .next s) ∧
  ∀ (p : Packet) (s : State), p.command &&& 0x3F ≠ 0x09 →
    decode p = .notCmd ∧ applyPacket p s =
      .next { s with buf := [], cnt := 0, outbox := s.outbox ++ [.retired .notACommand] }

/-- Each instruction changes its own RAM and `DIRTY`, and nothing else (20_memory.md R62, which the spec marks as
derived; 10_state.md R22, R27). -/
def Obligations.InstructionsChangeOnlyTheirRam : Prop :=
  ∀ (i : Instr) (s t : State), exec i s = .next t →
    t = { s with pix := t.pix, pal := t.pal, dirty := t.dirty } ∧
    ((∀ c r, i ≠ .memPre c r) → (∀ b, i ≠ .tile b) → (∀ b, i ≠ .tileX b) → t.pix = s.pix) ∧
    ((∀ es, i ≠ .clutLo es) → (∀ es, i ≠ .clutHi es) → t.pal = s.pal)

/-- "The instructions that set it are therefore exactly" `MEMPRE`, `CLUTLO`, `CLUTHI` always and `TILE`, `TILEX` inside
the grid; no instruction clears it (10_state.md R27; 92_eei_decisions.md D7, D8, log entries 8, 10). -/
def Obligations.DirtyIsSetExactlyByWriters : Prop :=
  ∀ (i : Instr) (s : State), ∃ t, exec i s = .next t ∧ t.dirty = (s.dirty || performsWrite i)

/-- The pixel RAM after an instruction depends on the instruction and the pixel RAM alone, and the palette on the
instruction and the palette alone: neither the other RAM, nor `DIRTY`, nor the framer takes part (42_tile_block.md R151:
"The palette is not consulted"; 44_color_table.md R177; 10_state.md R22). -/
def Obligations.EachRamEvolvesOnItsOwn : Prop :=
  ∀ (i : Instr) (s s' : State),
    ∃ t t', exec i s = .next t ∧ exec i s' = .next t' ∧
      (s.pix = s'.pix → t.pix = t'.pix) ∧ (s.pal = s'.pal → t.pal = t'.pal)

/-! ### The framer and the step -/

/-- Every packet retires normally: no packet content raises an exception or stops the machine; the record is emitted,
the counter returns to 0 and the session is unchanged (40_framer_dispatch.md R121, 60_exceptions.md R205, R209). -/
def Obligations.EveryPacketRetires : Prop :=
  ∀ (p : Packet) (s : State),
    ∃ t, applyPacket p s = .next t ∧ t.buf = [] ∧ t.cnt = 0 ∧ t.session = s.session ∧ t.inbox = s.inbox ∧
      t.outbox = s.outbox ++ [.retired (outcomeOf (decode p))]

/-- `PushByte` before the 24th byte: the byte is stored and counted, nothing else happens (40_framer_dispatch.md R120). -/
def Obligations.PushByteIsStoredAndCounted : Prop :=
  ∀ (s : State) (b : Byte) (rest : List Event), s.session = .run → s.cnt.val ≤ 22 → s.buf.length = s.cnt.val →
    s.inbox = .pushByte b :: rest →
    ∃ c : Fin 24, c.val = s.cnt.val + 1 ∧ step s = .next { s with buf := s.buf ++ [b], cnt := c, inbox := rest }

/-- A STEP RUNS THE DECODED INSTRUCTION: with 23 bytes buffered in `RUN`, the next byte completes a packet that always
decodes, and the step is exec of that instruction, after which `CNT` is 0, `BUF` holds no value and the record is
emitted (40_framer_dispatch.md R121; that it is one atomic event is 92_eei_decisions.md D3, log entry 12). -/
def Obligations.StepRunsTheDecodedInstruction : Prop :=
  ∀ (s : State) (b : Byte) (rest : List Event), s.session = .run → s.cnt.val = 23 → s.buf.length = 23 →
    s.inbox = .pushByte b :: rest →
    ∃ i, decodeBytes (s.buf ++ [b]) = .ok (i, []) ∧ i.wellFormed = true ∧
      step s =
        match exec i { s with buf := s.buf ++ [b], inbox := rest } with
        | .next t => .next { t with buf := [], cnt := 0, outbox := t.outbox ++ [.retired (outcomeOf i)] }
        | .fault f => .fault f
        | .refused r => .refused r

/-- `withFetchWord` makes the next step run the instruction that `decodeTableWord` reads from the same word (the model's
own loading of a packet, log entry 18, not a rule of the spec). -/
def Obligations.FetchWordRunsTheTableInstruction : Prop :=
  ∀ (s : State) (nbits w : Nat) (i : Instr), decodeTableWord nbits w = some i →
    ∃ t, exec i s = .next t ∧
      step (s.withFetchWord nbits w) =
        .next { t with buf := [], cnt := 0, session := .run, outbox := t.outbox ++ [.retired (outcomeOf i)] }

/-- `EndOfStream`: `SESSION = DONE` with no byte left over, `ShortRead` otherwise, which sets `SESSION = ERR` and keeps
everything else (40_framer_dispatch.md R122, 60_exceptions.md R206). That the clean end is also emitted as the output
`cleanEnd` is the model's choice (log entry 2), and that `ShortRead` records the left-over count is
92_eei_decisions.md D10, log entry 15. -/
def Obligations.EndOfStreamEndsTheSession : Prop :=
  ∀ (s : State) (rest : List Event), s.session = .run → s.inbox = .endOfStream :: rest →
    (s.cnt.val = 0 →
      step s = .next { s with session := .done, inbox := rest, outbox := s.outbox ++ [.cleanEnd] }) ∧
    (s.cnt.val ≠ 0 →
      step s = .next
        { s with session := .err, inbox := rest, outbox := s.outbox ++ [.raised (.shortRead s.cnt.val)] })

/-- Outside `RUN` the stream events are not enabled: no state change, the event is marked refused
(40_framer_dispatch.md R129, which rests on 92_eei_decisions.md D20; log entry 4). -/
def Obligations.StreamEventsOutsideRunAreRefused : Prop :=
  ∀ (s : State) (e : Event) (rest : List Event), s.session ≠ .run → s.inbox = e :: rest →
    (∃ b, e = .pushByte b) ∨ e = .endOfStream →
    step s = .next { s with inbox := rest, outbox := s.outbox ++ [.refused e] }

/-- With no event presented the core is idle (00_scope.md R12 (b), 60_exceptions.md R231; log entry 3). -/
def Obligations.NoEventNoChange : Prop :=
  ∀ s : State, s.inbox = [] → step s = .next s

/-- The derived event `PushPacket`: 24 `PushByte` events from a packet boundary have together the effect of one retire
and nothing else (40_framer_dispatch.md R132, which the spec marks as derived). -/
def Obligations.TwentyFourBytesAreOnePacket : Prop :=
  ∀ (p : Packet) (s : State) (rest : List Event), s.session = .run → s.cnt.val = 0 →
    s.inbox = p.toBytes.map Event.pushByte ++ rest →
    ∃ t, applyPacket p { s with inbox := rest } = .next t ∧ runSteps 24 s = .next t

/-- The event machine computes `frame` (40_framer_dispatch.md R124, which the spec marks as derived): fed any byte
sequence from a packet boundary and then `EndOfStream`, it retires exactly the packets of the sequence, in order, with
their effects, drops the tail, and ends `DONE` or `ERR` as the left-over length says. That the clean end is also emitted
as the output `cleanEnd` is the model's choice (log entry 2), and that `ShortRead` leaves the left-over count in `CNT` and
the left-over bytes in `BUF` is 92_eei_decisions.md D10, log entry 15. -/
def Obligations.EventMachineComputesFrame : Prop :=
  ∀ (bs : List Byte) (s : State), s.session = .run → s.cnt.val = 0 →
    s.inbox = bs.map Event.pushByte ++ [.endOfStream] →
    ∃ (ps : List Packet) (u t : State),
      ps.map Packet.toBytes = (frame bs).1 ∧
      applyPackets ps { s with inbox := [] } = .next u ∧
      u.outbox = s.outbox ++ ps.map (fun p => .retired (outcomeOf (decode p))) ∧
      runSteps (bs.length + 1) s = .next t ∧
      t.pix = u.pix ∧ t.pal = u.pal ∧ t.dirty = u.dirty ∧ t.inbox = [] ∧
      ((frame bs).2 = .cleanEnd → bs.length % 24 = 0 ∧ t.session = .done ∧ t.cnt.val = 0 ∧
        t.outbox = u.outbox ++ [.cleanEnd]) ∧
      (∀ r, (frame bs).2 = .shortRead r → r = bs.length % 24 ∧ r ≠ 0 ∧ t.session = .err ∧ t.cnt.val = r ∧
        t.buf = bs.drop (bs.length - r) ∧ t.outbox = u.outbox ++ [.raised (.shortRead r)])

/-! ### The host's operations -/

/-- `ReadPixel`, `ReadPalette`, `ReadStatus`: each returns the value asked for and changes nothing, in every session and
between any two bytes; a coordinate outside the grid is refused (45_host_ops.md R191, R192, R193, R197; 20_memory.md R64;
92_eei_decisions.md D21, D26, log entries 4 and 8). -/
def Obligations.ReadsReturnTheStateUnchanged : Prop :=
  ∀ (s : State) (rest : List Event) (x y : Nat) (i : Fin 16),
    (s.inbox = .readPixel x y :: rest → x < 288 → y < 192 →
      step s = .next { s with inbox := rest, outbox := s.outbox ++ [.pixel (s.pix.read (y * 288 + x))] }) ∧
    (s.inbox = .readPixel x y :: rest → 288 ≤ x ∨ 192 ≤ y →
      step s = .next { s with inbox := rest, outbox := s.outbox ++ [.refused (.readPixel x y)] }) ∧
    (s.inbox = .readPalette i :: rest →
      step s = .next { s with inbox := rest, outbox := s.outbox ++ [.palette s.pal[i]] }) ∧
    (s.inbox = .readStatus :: rest →
      step s = .next { s with inbox := rest, outbox := s.outbox ++ [.status s.dirty s.session s.cnt] })

/-- `ClearDirty` writes `DIRTY` only, in every session (45_host_ops.md R190; 92_eei_decisions.md D8, log entry 8). -/
def Obligations.ClearDirtyClearsOnlyDirty : Prop :=
  ∀ (s : State) (rest : List Event), s.inbox = .clearDirty :: rest →
    step s = .next { s with inbox := rest, dirty := false }

/-- `Resolve`: index 0..15 gives the entry with alpha 255, index 16..63 raises `PaletteIndexOutOfRange` with the
coordinate and the index, never wrapped or clamped; no state changes in either case; a coordinate outside the grid is
refused (45_host_ops.md R194, 60_exceptions.md R207, R214; 92_eei_decisions.md D5, D21, D24, log entries 4 and 14). -/
def Obligations.ResolveGivesColorOrError : Prop :=
  ∀ (s : State) (rest : List Event) (x y : Nat), s.inbox = .resolve x y :: rest →
    (x < 288 → y < 192 → (s.pix.read (y * 288 + x)).toNat ≤ 15 →
      ∃ c : Rgb, s.pal[(s.pix.read (y * 288 + x)).toNat]? = some c ∧
        step s = .next
          { s with inbox := rest, outbox := s.outbox ++ [.resolved { r := c.r, g := c.g, b := c.b, a := 255 }] }) ∧
    (x < 288 → y < 192 → 16 ≤ (s.pix.read (y * 288 + x)).toNat →
      step s = .next
        { s with
          inbox := rest
          outbox := s.outbox ++ [.raised (.paletteIndexOutOfRange x y (s.pix.read (y * 288 + x)))] }) ∧
    (288 ≤ x ∨ 192 ≤ y → step s = .next { s with inbox := rest, outbox := s.outbox ++ [.refused (.resolve x y)] })

/-- `ResolveFrame`: a grid of 192 rows of 288 independent results, each that of `Resolve` on the same state, errors
included; no state changes (45_host_ops.md R195; 92_eei_decisions.md D22, log entry 14). -/
def Obligations.ResolveFrameIsTheGridOfLookups : Prop :=
  ∀ (s : State) (rest : List Event), s.inbox = .resolveFrame :: rest →
    ∃ rows : List (List Lookup),
      step s = .next { s with inbox := rest, outbox := s.outbox ++ [.frame rows] } ∧ rows.length = 192 ∧
      ∀ y, y < 192 → ∃ row, rows[y]? = some row ∧ row.length = 288 ∧ ∀ x, x < 288 → row[x]? = s.resolve? x y

/-- `Reset` puts every state element at its reset value, in every session, and touches neither the events still to come
nor the outputs already emitted (70_reset_and_hazards.md R235, which rests on 92_eei_decisions.md D18; 10_state.md R37). -/
def Obligations.ResetRestoresEveryElement : Prop :=
  ∀ (s : State) (rest : List Event), s.inbox = .reset :: rest →
    ∃ t, step s = .next t ∧ (∀ a, t.pix.read a = 0) ∧ (∀ i : Fin 16, t.pal[i] = { r := 0, g := 0, b := 0 }) ∧
      t.dirty = false ∧ t.cnt.val = 0 ∧ t.buf = [] ∧ t.session = .run ∧ t.inbox = rest ∧ t.outbox = s.outbox ∧
      t = { State.reset with inbox := rest, outbox := s.outbox }

/-- The state after reset is black, clean and empty, and every pixel resolves to opaque black (10_state.md R37,
70_reset_and_hazards.md R236; `DIRTY` 0 is 92_eei_decisions.md D8, alpha D5; the empty `inbox` and `outbox` are the
model's, log entries 1 and 2). -/
def Obligations.ResetStateIsBlackCleanEmpty : Prop :=
  (∀ x y, x < 288 → y < 192 →
    State.reset.pixelAt x y = 0 ∧ State.reset.resolve? x y = some (.color { r := 0, g := 0, b := 0, a := 255 })) ∧
  State.reset.dirty = false ∧ State.reset.cnt.val = 0 ∧ State.reset.buf = [] ∧ State.reset.session = .run ∧
  State.reset.inbox = [] ∧ State.reset.outbox = []

/-- Before the first `Reset` no event but `Reset` is enabled, and it gives the state after reset
(70_reset_and_hazards.md R235, 93_implementation_defined.md U10; log entry 16). -/
def Obligations.PowerOnNeedsReset : Prop :=
  ∀ e : Event, (e = .reset → powerOn e = some State.reset) ∧ (e ≠ .reset → powerOn e = none)

/-! ### Whole-machine rules -/

/-- The invariant holds after reset: framer invariant, canonical pixel RAM, palette-value closure (10_state.md R29, R30). -/
def Obligations.InvariantHoldsAtReset : Prop := State.reset.Inv

/-- EVERY STEP KEEPS THE INVARIANT, from every state that has it and for every event: `BUF` holds exactly `CNT` bytes,
`DONE` implies `CNT = 0`, `ERR` implies `CNT >= 1` (10_state.md R21, R30), the pixel RAM stays canonical, and every
palette channel stays a multiple of 17 (10_state.md R29; both rules the spec marks as derived). -/
def Obligations.EveryStepKeepsTheInvariant : Prop :=
  ∀ s t : State, s.Inv → step s = .next t → t.Inv

/-- "every event completes" (70_reset_and_hazards.md R249): from every state whose buffer holds `CNT` bytes, a step
answers a next state; no event faults and none is left without a meaning (60_exceptions.md R205). -/
def Obligations.EveryEventCompletes : Prop :=
  ∀ s : State, s.FramerInv → ∃ t, step s = .next t

/-- "The only transitions are `RUN -> DONE` and `RUN -> ERR`" by `EndOfStream` "and `any -> RUN` by `Reset`" (10_state.md
R24, which rests on 92_eei_decisions.md D9; 60_exceptions.md R215). -/
def Obligations.SessionTransitionsAreTheOnlyOnes : Prop :=
  ∀ s t : State, step s = .next t →
    t.session = s.session ∨
    (s.session = .run ∧ s.inbox.head? = some .endOfStream ∧ s.cnt.val = 0 ∧ t.session = .done) ∨
    (s.session = .run ∧ s.inbox.head? = some .endOfStream ∧ s.cnt.val ≠ 0 ∧ t.session = .err) ∨
    (s.inbox.head? = some .reset ∧ t.session = .run)

/-- Only the retire of a packet and `Reset` change the screen: no other event, and no byte of a partly received packet,
reaches `PIX` or `PAL` (60_exceptions.md R218, 20_memory.md R50, 70_reset_and_hazards.md R244). -/
def Obligations.ScreenChangesOnlyAtRetireOrReset : Prop :=
  ∀ s t : State, step s = .next t →
    (t.pix = s.pix ∧ t.pal = s.pal) ∨ s.inbox.head? = some .reset ∨
    (s.session = .run ∧ s.cnt.val = 23 ∧ ∃ b, s.inbox.head? = some (.pushByte b))

/-- `DIRTY` falls only by `ClearDirty` and `Reset`; no instruction and no read clears it (10_state.md R27; 92_eei_decisions.md
D8, D26, log entry 8). -/
def Obligations.DirtyFallsOnlyByTheHost : Prop :=
  ∀ s t : State, step s = .next t → s.dirty = true → t.dirty = false →
    s.inbox.head? = some .clearDirty ∨ s.inbox.head? = some .reset

/-- "nothing in the hardware reads it to take a decision" (10_state.md R27): two states that differ in `DIRTY` only go on
alike in everything but `DIRTY`, and emit the same output unless it is the status that was asked for. -/
def Obligations.DirtyDecidesNothing : Prop :=
  ∀ (s t : State) (d : Bool), step s = .next t →
    ∃ t', step { s with dirty := d } = .next t' ∧
      t'.buf = t.buf ∧ t'.cnt = t.cnt ∧ t'.session = t.session ∧ t'.pix = t.pix ∧ t'.pal = t.pal ∧ t'.inbox = t.inbox ∧
      (s.inbox.head? ≠ some .readStatus → t'.outbox = t.outbox)

/-- "Each completed packet emits exactly one" retire record, and no other event emits one: a step adds at most one output,
and it is a retire record exactly when the step completed a packet (10_state.md R36; that the model keeps the outputs in
`outbox` is log entry 2). -/
def Obligations.OneRetireRecordPerPacket : Prop :=
  ∀ s t : State, step s = .next t →
    ∃ os : List Output, t.outbox = s.outbox ++ os ∧ os.length ≤ 1 ∧
      ((∃ o, .retired o ∈ os) ↔
        s.session = .run ∧ s.cnt.val = 23 ∧ ∃ b, s.inbox.head? = some (.pushByte b))
end

