-- ==== Sys2Proof/Laws/Decode.lean ====
section
/-! SUPPORT. The values of the decoder's fields, what the decoder reads for each opcode word, and what the encoder's
field placements read back as. -/

namespace Sys2Proof

theorem field_toNat (b : Byte) (lo len : Nat) : (field b lo len).toNat = b.toNat / 2 ^ lo % 2 ^ len := by
  simp [field, BitVec.extractLsb'_toNat, Nat.shiftRight_eq_div_pow]

/-- Masking a byte to 6 bits keeps its value modulo 64. -/
theorem mask6_toNat (b : Byte) : (b &&& 0x3F).toNat = b.toNat % 64 := by
  rw [BitVec.toNat_and]
  exact Nat.and_two_pow_sub_one_eq_mod b.toNat 6

theorem Packet.isCommand_iff (p : Packet) : p.isCommand = true ↔ p.command &&& 0x3F = 0x09 := by
  simp [Packet.isCommand, Config.fieldMask, Config.cmdMarker]

theorem Packet.isCommand_iff_mod (p : Packet) : p.isCommand = true ↔ p.command.toNat % 64 = 9 := by
  rw [Packet.isCommand_iff, ← BitVec.toNat_inj, mask6_toNat]
  rfl

theorem Packet.code_toNat (p : Packet) : p.code.toNat = p.instruction.toNat % 64 := by
  simp [Packet.code, field_toNat]

theorem Packet.opw_toNat (p : Packet) : p.opw.toNat = p.command.toNat * 256 + p.instruction.toNat := by
  have h := p.instruction.isLt
  rw [Packet.opw, BitVec.toNat_append, ← Nat.shiftLeft_add_eq_or_of_lt h, Nat.shiftLeft_eq]

/-- The selection `OPW & 0x3F3F` in terms of its two bytes (30_encoding.md R82). -/
theorem Packet.opw_mask (p : Packet) :
    p.opw &&& 0x3F3F = (p.command &&& 0x3F) ++ (p.instruction &&& 0x3F) := by
  have e : (0x3F3F : BitVec 16) = (0x3F : BitVec 8) ++ (0x3F : BitVec 8) := by decide
  rw [Packet.opw, e]
  exact BitVec.and_append

/-- `OPW & 0x3F3F = 0x0900 | c` says that the packet is a command packet with code `c` (30_encoding.md R82). -/
theorem Packet.opw_select (p : Packet) (c : Nat) (hc : c < 64) :
    p.opw &&& 0x3F3F = BitVec.ofNat 16 (0x0900 + c) ↔ p.isCommand = true ∧ p.code.toNat = c := by
  rw [Packet.opw_mask, Packet.isCommand_iff_mod, Packet.code_toNat, ← BitVec.toNat_inj, BitVec.toNat_append,
    mask6_toNat, mask6_toNat, ← Nat.shiftLeft_add_eq_or_of_lt (by omega), Nat.shiftLeft_eq, BitVec.toNat_ofNat]
  omega

/-- Decoding by command test and code. -/
theorem decode_of_select {p : Packet} {c : Nat} (h : p.isCommand = true ∧ p.code.toNat = c) :
    decode p = decodeCommand p.code p.payload := by
  rw [decode, if_pos h.1]

theorem decode_of_not_command {p : Packet} (h : ¬ p.isCommand = true) : decode p = .notCmd := by
  rw [decode, if_neg h]

/-- The one case split of the decoder: nine codes and the rest (30_encoding.md R93). -/
theorem decodeCommand_cases (code : BitVec 6) (pl : Vector Byte 16) :
    (code.toNat = 1 ∧ decodeCommand code pl = .memPre (field pl[0] 0 4) (field pl[1] 0 4)) ∨
    (code.toNat = 2 ∧ decodeCommand code pl = .border) ∨
    (code.toNat = 6 ∧ decodeCommand code pl = .tile (decodeTile pl)) ∨
    (code.toNat = 20 ∧ decodeCommand code pl = .scrlP (decodeScroll pl)) ∨
    (code.toNat = 24 ∧ decodeCommand code pl = .scrlC (decodeScroll pl)) ∨
    (code.toNat = 28 ∧ decodeCommand code pl = .transp) ∨
    (code.toNat = 30 ∧ decodeCommand code pl = .clutLo (decodeEntries pl)) ∨
    (code.toNat = 31 ∧ decodeCommand code pl = .clutHi (decodeEntries pl)) ∨
    (code.toNat = 38 ∧ decodeCommand code pl = .tileX (decodeTile pl)) ∨
    (code.toNat ∉ recognizedCodes ∧ decodeCommand code pl = .unsup code) := by
  unfold decodeCommand
  split <;> simp_all [recognizedCodes]

/-! ### Encoded fields read back -/

theorem field_setWidth (len : Nat) (h : len ≤ 8) (x : BitVec len) : field (x.setWidth 8) 0 len = x := by
  apply BitVec.eq_of_toNat_eq
  have hx := x.isLt
  have hp : 2 ^ len ≤ 2 ^ 8 := Nat.pow_le_pow_right (by omega) h
  rw [field_toNat, BitVec.toNat_setWidth, Nat.mod_eq_of_lt (a := x.toNat) (by omega)]
  simp [Nat.mod_eq_of_lt hx]

theorem field_hCmd (hc : BitVec 2) (ho : BitVec 3) : field ((hc.setWidth 8 <<< 4) ||| ho.setWidth 8) 4 2 = hc := by
  revert hc ho
  decide

theorem field_hOffset (hc : BitVec 2) (ho : BitVec 3) : field ((hc.setWidth 8 <<< 4) ||| ho.setWidth 8) 0 3 = ho := by
  revert hc ho
  decide

theorem field_vCmd (vc : BitVec 2) (vo : BitVec 4) : field ((vc.setWidth 8 <<< 4) ||| vo.setWidth 8) 4 2 = vc := by
  revert vc vo
  decide

theorem field_vOffset (vc : BitVec 2) (vo : BitVec 4) : field ((vc.setWidth 8 <<< 4) ||| vo.setWidth 8) 0 4 = vo := by
  revert vc vo
  decide

/-- Both halves of an encoded entry read back to it under `CONCAT` (30_encoding.md R100). -/
theorem decodeEntry_encoded (e : Rgb444) : decodeEntry (entryHigh e) (entryLow e) = e := by
  simp only [decodeEntry, entryHigh, entryLow, field_setWidth 6 (by decide), repack, Config.clutRepack]
  ext i hi
  simp only [BitVec.getElem_append, BitVec.getElem_extractLsb']
  split
  · rw [Nat.zero_add, BitVec.getLsbD_eq_getElem (by omega)]
  · rw [BitVec.getLsbD_eq_getElem (by omega)]
    congr 1
    omega

/-- The value of a colour entry under `CONCAT` (30_encoding.md R90). -/
theorem decodeEntry_toNat (h : Config.clutRepack = .concat) (hi lo : Byte) :
    (decodeEntry hi lo).toNat = hi.toNat % 64 * 64 + lo.toNat % 64 := by
  simp only [decodeEntry, h, repack]
  rw [BitVec.toNat_append, ← Nat.shiftLeft_add_eq_or_of_lt (BitVec.isLt _), Nat.shiftLeft_eq, field_toNat, field_toNat]
  simp

/-! ### Packets and bytes -/

theorem Packet.toBytes_length (p : Packet) : p.toBytes.length = Config.pktLen := by
  simp only [Packet.toBytes, List.length_cons, List.length_append, Vector.length_toList]

/-- Bytes that give a packet are that packet's bytes (40_framer_dispatch.md R125). -/
theorem Packet.toBytes_of_ofBytes {bs : List Byte} {p : Packet} (h : Packet.ofBytes bs = some p) : p.toBytes = bs := by
  unfold Packet.ofBytes at h
  split at h
  · cases h
    rfl
  · cases h

theorem Packet.ofBytes_exists {bs : List Byte} (h : bs.length = Config.pktLen) : ∃ p, Packet.ofBytes bs = some p := by
  match bs, h with
  | [_, _, _, _, _, _, _, _, _, _, _, _, _, _, _, _, _, _, _, _, _, _, _, _], _ => exact ⟨_, rfl⟩

theorem Packet.ofBytes_length {bs : List Byte} {p : Packet} (h : Packet.ofBytes bs = some p) :
    bs.length = Config.pktLen := by
  rw [← Packet.toBytes_of_ofBytes h, Packet.toBytes_length]

theorem Packet.ofBytes_toBytes (p : Packet) : Packet.ofBytes p.toBytes = some p := by
  obtain ⟨q, hq⟩ := Packet.ofBytes_exists p.toBytes_length
  have h := Packet.toBytes_of_ofBytes hq
  obtain ⟨c, i, ⟨⟨a⟩, ha⟩, ⟨⟨b⟩, hb⟩, ⟨⟨d⟩, hd⟩⟩ := p
  obtain ⟨c', i', ⟨⟨a'⟩, ha'⟩, ⟨⟨b'⟩, hb'⟩, ⟨⟨d'⟩, hd'⟩⟩ := q
  simp only [Packet.toBytes, Vector.toList_mk, List.cons.injEq] at h
  simp only [List.size_toArray] at ha hb hd ha' hb' hd'
  obtain ⟨rfl, rfl, h₁⟩ := h
  obtain ⟨rfl, h₂⟩ := List.append_inj h₁ (by omega)
  obtain ⟨rfl, rfl⟩ := List.append_inj h₂ (by omega)
  exact hq

namespace Machine

/-! ### Colours -/

theorem x17_toNat (n : Nibble) : (x17 n).toNat = n.toNat * 17 := by
  have h := n.isLt
  simp only [x17, BitVec.toNat_mul, BitVec.toNat_setWidth, Config.expand]
  rw [Nat.mod_eq_of_lt (a := n.toNat) (by omega)]
  exact Nat.mod_eq_of_lt (by simp; omega)

end Machine

end Sys2Proof
end

