-- ==== Sys2Proof/Laws/Memory.lean ====
section
/-! SUPPORT. The pixel RAM as data: reading after writing, the canonical form is kept, and two canonical memories
that read alike are equal. -/

namespace Sys2Proof.Machine

@[simp] theorem Memory.read_nil (a : Nat) : Memory.read [] a = blankPixel := rfl

theorem Memory.read_cons (k : Nat) (v : Pixel) (m : Memory) (a : Nat) :
    Memory.read ((k, v) :: m) a = if a = k then v else Memory.read m a := rfl

@[simp] theorem Memory.wfFrom_nil (lo : Nat) : Memory.wfFrom lo [] = true := rfl

theorem Memory.wfFrom_cons {lo k : Nat} {v : Pixel} {m : Memory} :
    Memory.wfFrom lo ((k, v) :: m) = true ↔
      lo ≤ k ∧ k < Config.nPix ∧ v ≠ blankPixel ∧ Memory.wfFrom (k + 1) m = true := by
  simp [Memory.wfFrom, and_assoc]

theorem Memory.wfFrom_mono {lo lo' : Nat} {m : Memory} (h : Memory.wfFrom lo m = true) (hl : lo' ≤ lo) :
    Memory.wfFrom lo' m = true := by
  cases m with
  | nil => rfl
  | cons e m =>
    obtain ⟨h1, h2⟩ := Memory.wfFrom_cons.mp h
    exact Memory.wfFrom_cons.mpr ⟨hl.trans h1, h2⟩

/-- Nothing is listed below the bound of a canonical list. -/
theorem Memory.read_of_lt {lo : Nat} {m : Memory} (h : Memory.wfFrom lo m = true) {a : Nat} (ha : a < lo) :
    m.read a = blankPixel := by
  induction m generalizing lo with
  | nil => rfl
  | cons e m ih =>
    obtain ⟨k, v⟩ := e
    obtain ⟨h1, -, -, h4⟩ := Memory.wfFrom_cons.mp h
    rw [Memory.read_cons, if_neg (by omega), ih h4 (by omega)]

/-- Nothing is listed outside the RAM. -/
theorem Memory.read_outside {lo : Nat} {m : Memory} (h : Memory.wfFrom lo m = true) {a : Nat} (ha : Config.nPix ≤ a) :
    m.read a = blankPixel := by
  induction m generalizing lo with
  | nil => rfl
  | cons e m ih =>
    obtain ⟨k, v⟩ := e
    obtain ⟨-, h2, -, h4⟩ := Memory.wfFrom_cons.mp h
    rw [Memory.read_cons, if_neg (by omega), ih h4]

theorem Memory.wfFrom_write {lo : Nat} {m : Memory} (h : Memory.wfFrom lo m = true) {a : Nat} (v : Pixel)
    (hlo : lo ≤ a) (ha : a < Config.nPix) : Memory.wfFrom lo (m.write a v) = true := by
  induction m generalizing lo with
  | nil =>
    simp only [Memory.write]
    split
    · rfl
    · exact Memory.wfFrom_cons.mpr ⟨hlo, ha, ‹_›, rfl⟩
  | cons e m ih =>
    obtain ⟨k, w⟩ := e
    obtain ⟨h1, h2, h3, h4⟩ := Memory.wfFrom_cons.mp h
    simp only [Memory.write]
    split
    · split
      · exact h
      · exact Memory.wfFrom_cons.mpr ⟨hlo, ha, ‹_›, Memory.wfFrom_cons.mpr ⟨by omega, h2, h3, h4⟩⟩
    · split
      · subst a
        split
        · exact Memory.wfFrom_mono h4 (by omega)
        · exact Memory.wfFrom_cons.mpr ⟨h1, h2, ‹_›, h4⟩
      · exact Memory.wfFrom_cons.mpr ⟨h1, h2, h3, ih h4 (by omega)⟩

theorem Memory.read_write_from {lo : Nat} {m : Memory} (h : Memory.wfFrom lo m = true) (a : Nat) (v : Pixel) (b : Nat) :
    (m.write a v).read b = if b = a then v else m.read b := by
  induction m generalizing lo with
  | nil =>
    simp only [Memory.write]
    split
    · simp_all
    · rw [Memory.read_cons]
  | cons e m ih =>
    obtain ⟨k, w⟩ := e
    obtain ⟨h1, -, -, h4⟩ := Memory.wfFrom_cons.mp h
    simp only [Memory.write]
    split
    · split
      · by_cases hb : b = a
        · subst hb
          rw [if_pos rfl, Memory.read_of_lt (Memory.wfFrom_cons.mpr ⟨le_refl k, (Memory.wfFrom_cons.mp h).2⟩) ‹_›, ‹v = _›]
        · rw [if_neg hb]
      · rw [Memory.read_cons]
    · split
      · subst a
        split
        · by_cases hb : b = k
          · subst hb
            rw [if_pos rfl, Memory.read_of_lt h4 (by omega), ‹v = _›]
          · rw [if_neg hb, Memory.read_cons, if_neg hb]
        · rw [Memory.read_cons, Memory.read_cons]
          split <;> rfl
      · rw [Memory.read_cons, ih h4, Memory.read_cons]
        by_cases hb : b = k
        · rw [if_pos hb, if_neg (by omega)]
          simp [hb]
        · simp [hb]

/-- A write keeps the canonical form. -/
theorem Memory.wf_write {m : Memory} (h : m.wf = true) {a : Nat} (v : Pixel) (ha : a < Config.nPix) :
    (m.write a v).wf = true := Memory.wfFrom_write h v (Nat.zero_le a) ha

/-- Reading after writing. -/
theorem Memory.read_write {m : Memory} (h : m.wf = true) (a : Nat) (v : Pixel) (b : Nat) :
    (m.write a v).read b = if b = a then v else m.read b := Memory.read_write_from h a v b

theorem Memory.wfFrom_span {v : Pixel} (hv : v ≠ blankPixel) (a n : Nat) (h : a + n ≤ Config.nPix) :
    Memory.wfFrom a (Memory.span v a n) = true := by
  induction n generalizing a with
  | zero => rfl
  | succ n ih => exact Memory.wfFrom_cons.mpr ⟨le_refl a, by omega, hv, ih (a + 1) (by omega)⟩

theorem Memory.read_span (v : Pixel) (a n b : Nat) :
    (Memory.span v a n).read b = if a ≤ b ∧ b < a + n then v else blankPixel := by
  induction n generalizing a with
  | zero => simp only [Memory.span, Memory.read_nil]; rw [if_neg (by omega)]
  | succ n ih =>
    rw [Memory.span, Memory.read_cons, ih]
    by_cases hb : b = a
    · rw [if_pos hb, if_pos (by omega)]
    · rw [if_neg hb]
      congr 1
      simp only [eq_iff_iff]
      omega

theorem Memory.wf_fill (v : Pixel) : (Memory.fill v).wf = true := by
  unfold Memory.fill
  split
  · rfl
  · exact Memory.wfFrom_span ‹_› 0 Config.nPix (by omega)

theorem Memory.read_fill (v : Pixel) (a : Nat) :
    (Memory.fill v).read a = if a < Config.nPix then v else blankPixel := by
  unfold Memory.fill
  split
  · simp_all
  · rw [Memory.read_span]
    simp

/-- Two canonical memories that read alike are the same list. -/
theorem Memory.ext_from {lo : Nat} {m n : Memory} (hm : Memory.wfFrom lo m = true) (hn : Memory.wfFrom lo n = true)
    (h : ∀ a, m.read a = n.read a) : m = n := by
  induction m generalizing lo n with
  | nil =>
    cases n with
    | nil => rfl
    | cons e n =>
      obtain ⟨k, v⟩ := e
      obtain ⟨-, -, hv, -⟩ := Memory.wfFrom_cons.mp hn
      exact absurd (by simpa [Memory.read_cons] using (h k).symm) hv
  | cons e m ih =>
    obtain ⟨k, v⟩ := e
    obtain ⟨h1, h2, hv, h4⟩ := Memory.wfFrom_cons.mp hm
    cases n with
    | nil => exact absurd (by simpa [Memory.read_cons] using h k) hv
    | cons e' n =>
      obtain ⟨k', v'⟩ := e'
      obtain ⟨h1', h2', hv', h4'⟩ := Memory.wfFrom_cons.mp hn
      have hk : k = k' := by
        rcases Nat.lt_trichotomy k k' with hlt | heq | hgt
        · have hr := h k
          rw [Memory.read_of_lt (Memory.wfFrom_cons.mpr ⟨le_refl k', h2', hv', h4'⟩) hlt] at hr
          exact absurd (by simpa [Memory.read_cons] using hr) hv
        · exact heq
        · have hr := h k'
          rw [Memory.read_of_lt (Memory.wfFrom_cons.mpr ⟨le_refl k, h2, hv, h4⟩) hgt] at hr
          exact absurd (by simpa [Memory.read_cons] using hr.symm) hv'
      subst hk
      have hvv : v = v' := by simpa [Memory.read_cons] using h k
      subst hvv
      have hmn : m = n := by
        refine ih h4 h4' fun a => ?_
        by_cases ha : a = k
        · subst ha
          rw [Memory.read_of_lt h4 (by omega), Memory.read_of_lt h4' (by omega)]
        · simpa [Memory.read_cons, ha] using h a
      rw [hmn]

theorem Memory.ext_of_wf {m n : Memory} (hm : m.wf = true) (hn : n.wf = true)
    (h : ∀ a, a < Config.nPix → m.read a = n.read a) : m = n := by
  refine Memory.ext_from hm hn fun a => ?_
  by_cases ha : a < Config.nPix
  · exact h a ha
  · rw [Memory.read_outside hm (by omega), Memory.read_outside hn (by omega)]

end Sys2Proof.Machine
end

