-- ==== Sys2Proof/Laws/State.lean ====
section
/-! SUPPORT. One lemma per field per update of State, true by rfl, so that no later proof unfolds a record update. -/

namespace Sys2Proof.Machine

variable (s : State)

@[simp] theorem State.setDirty_buf : s.setDirty.buf = s.buf := rfl
@[simp] theorem State.setDirty_cnt : s.setDirty.cnt = s.cnt := rfl
@[simp] theorem State.setDirty_session : s.setDirty.session = s.session := rfl
@[simp] theorem State.setDirty_pix : s.setDirty.pix = s.pix := rfl
@[simp] theorem State.setDirty_pal : s.setDirty.pal = s.pal := rfl
@[simp] theorem State.setDirty_dirty : s.setDirty.dirty = true := rfl
@[simp] theorem State.setDirty_inbox : s.setDirty.inbox = s.inbox := rfl
@[simp] theorem State.setDirty_outbox : s.setDirty.outbox = s.outbox := rfl

@[simp] theorem State.clearDirty_buf : s.clearDirty.buf = s.buf := rfl
@[simp] theorem State.clearDirty_cnt : s.clearDirty.cnt = s.cnt := rfl
@[simp] theorem State.clearDirty_session : s.clearDirty.session = s.session := rfl
@[simp] theorem State.clearDirty_pix : s.clearDirty.pix = s.pix := rfl
@[simp] theorem State.clearDirty_pal : s.clearDirty.pal = s.pal := rfl
@[simp] theorem State.clearDirty_dirty : s.clearDirty.dirty = false := rfl
@[simp] theorem State.clearDirty_inbox : s.clearDirty.inbox = s.inbox := rfl
@[simp] theorem State.clearDirty_outbox : s.clearDirty.outbox = s.outbox := rfl

@[simp] theorem State.pixWrite_buf (a : Nat) (v : Pixel) : (s.pixWrite a v).buf = s.buf := rfl
@[simp] theorem State.pixWrite_cnt (a : Nat) (v : Pixel) : (s.pixWrite a v).cnt = s.cnt := rfl
@[simp] theorem State.pixWrite_session (a : Nat) (v : Pixel) : (s.pixWrite a v).session = s.session := rfl
@[simp] theorem State.pixWrite_pix (a : Nat) (v : Pixel) : (s.pixWrite a v).pix = s.pix.write a v := rfl
@[simp] theorem State.pixWrite_pal (a : Nat) (v : Pixel) : (s.pixWrite a v).pal = s.pal := rfl
@[simp] theorem State.pixWrite_dirty (a : Nat) (v : Pixel) : (s.pixWrite a v).dirty = true := rfl
@[simp] theorem State.pixWrite_inbox (a : Nat) (v : Pixel) : (s.pixWrite a v).inbox = s.inbox := rfl
@[simp] theorem State.pixWrite_outbox (a : Nat) (v : Pixel) : (s.pixWrite a v).outbox = s.outbox := rfl

@[simp] theorem State.pixFill_buf (v : Pixel) : (s.pixFill v).buf = s.buf := rfl
@[simp] theorem State.pixFill_cnt (v : Pixel) : (s.pixFill v).cnt = s.cnt := rfl
@[simp] theorem State.pixFill_session (v : Pixel) : (s.pixFill v).session = s.session := rfl
@[simp] theorem State.pixFill_pix (v : Pixel) : (s.pixFill v).pix = Memory.fill v := rfl
@[simp] theorem State.pixFill_pal (v : Pixel) : (s.pixFill v).pal = s.pal := rfl
@[simp] theorem State.pixFill_dirty (v : Pixel) : (s.pixFill v).dirty = true := rfl
@[simp] theorem State.pixFill_inbox (v : Pixel) : (s.pixFill v).inbox = s.inbox := rfl
@[simp] theorem State.pixFill_outbox (v : Pixel) : (s.pixFill v).outbox = s.outbox := rfl

@[simp] theorem State.palWrite_buf (i : Fin 16) (c : Rgb) : (s.palWrite i c).buf = s.buf := rfl
@[simp] theorem State.palWrite_cnt (i : Fin 16) (c : Rgb) : (s.palWrite i c).cnt = s.cnt := rfl
@[simp] theorem State.palWrite_session (i : Fin 16) (c : Rgb) : (s.palWrite i c).session = s.session := rfl
@[simp] theorem State.palWrite_pix (i : Fin 16) (c : Rgb) : (s.palWrite i c).pix = s.pix := rfl
@[simp] theorem State.palWrite_pal (i : Fin 16) (c : Rgb) : (s.palWrite i c).pal = s.pal.set i c := rfl
@[simp] theorem State.palWrite_dirty (i : Fin 16) (c : Rgb) : (s.palWrite i c).dirty = true := rfl
@[simp] theorem State.palWrite_inbox (i : Fin 16) (c : Rgb) : (s.palWrite i c).inbox = s.inbox := rfl
@[simp] theorem State.palWrite_outbox (i : Fin 16) (c : Rgb) : (s.palWrite i c).outbox = s.outbox := rfl

@[simp] theorem State.storeByte_buf (b : Byte) : (s.storeByte b).buf = s.buf.take s.cnt ++ [b] := rfl
@[simp] theorem State.storeByte_cnt (b : Byte) : (s.storeByte b).cnt = s.cnt := rfl
@[simp] theorem State.storeByte_session (b : Byte) : (s.storeByte b).session = s.session := rfl
@[simp] theorem State.storeByte_pix (b : Byte) : (s.storeByte b).pix = s.pix := rfl
@[simp] theorem State.storeByte_pal (b : Byte) : (s.storeByte b).pal = s.pal := rfl
@[simp] theorem State.storeByte_dirty (b : Byte) : (s.storeByte b).dirty = s.dirty := rfl
@[simp] theorem State.storeByte_inbox (b : Byte) : (s.storeByte b).inbox = s.inbox := rfl
@[simp] theorem State.storeByte_outbox (b : Byte) : (s.storeByte b).outbox = s.outbox := rfl

@[simp] theorem State.setCnt_buf (n : Fin 24) : (s.setCnt n).buf = s.buf := rfl
@[simp] theorem State.setCnt_cnt (n : Fin 24) : (s.setCnt n).cnt = n := rfl
@[simp] theorem State.setCnt_session (n : Fin 24) : (s.setCnt n).session = s.session := rfl
@[simp] theorem State.setCnt_pix (n : Fin 24) : (s.setCnt n).pix = s.pix := rfl
@[simp] theorem State.setCnt_pal (n : Fin 24) : (s.setCnt n).pal = s.pal := rfl
@[simp] theorem State.setCnt_dirty (n : Fin 24) : (s.setCnt n).dirty = s.dirty := rfl
@[simp] theorem State.setCnt_inbox (n : Fin 24) : (s.setCnt n).inbox = s.inbox := rfl
@[simp] theorem State.setCnt_outbox (n : Fin 24) : (s.setCnt n).outbox = s.outbox := rfl

@[simp] theorem State.emptyBuffer_buf : s.emptyBuffer.buf = [] := rfl
@[simp] theorem State.emptyBuffer_cnt : s.emptyBuffer.cnt = 0 := rfl
@[simp] theorem State.emptyBuffer_session : s.emptyBuffer.session = s.session := rfl
@[simp] theorem State.emptyBuffer_pix : s.emptyBuffer.pix = s.pix := rfl
@[simp] theorem State.emptyBuffer_pal : s.emptyBuffer.pal = s.pal := rfl
@[simp] theorem State.emptyBuffer_dirty : s.emptyBuffer.dirty = s.dirty := rfl
@[simp] theorem State.emptyBuffer_inbox : s.emptyBuffer.inbox = s.inbox := rfl
@[simp] theorem State.emptyBuffer_outbox : s.emptyBuffer.outbox = s.outbox := rfl

@[simp] theorem State.setSession_buf (v : Session) : (s.setSession v).buf = s.buf := rfl
@[simp] theorem State.setSession_cnt (v : Session) : (s.setSession v).cnt = s.cnt := rfl
@[simp] theorem State.setSession_session (v : Session) : (s.setSession v).session = v := rfl
@[simp] theorem State.setSession_pix (v : Session) : (s.setSession v).pix = s.pix := rfl
@[simp] theorem State.setSession_pal (v : Session) : (s.setSession v).pal = s.pal := rfl
@[simp] theorem State.setSession_dirty (v : Session) : (s.setSession v).dirty = s.dirty := rfl
@[simp] theorem State.setSession_inbox (v : Session) : (s.setSession v).inbox = s.inbox := rfl
@[simp] theorem State.setSession_outbox (v : Session) : (s.setSession v).outbox = s.outbox := rfl

@[simp] theorem State.setInbox_buf (rest : List Event) : (s.setInbox rest).buf = s.buf := rfl
@[simp] theorem State.setInbox_cnt (rest : List Event) : (s.setInbox rest).cnt = s.cnt := rfl
@[simp] theorem State.setInbox_session (rest : List Event) : (s.setInbox rest).session = s.session := rfl
@[simp] theorem State.setInbox_pix (rest : List Event) : (s.setInbox rest).pix = s.pix := rfl
@[simp] theorem State.setInbox_pal (rest : List Event) : (s.setInbox rest).pal = s.pal := rfl
@[simp] theorem State.setInbox_dirty (rest : List Event) : (s.setInbox rest).dirty = s.dirty := rfl
@[simp] theorem State.setInbox_inbox (rest : List Event) : (s.setInbox rest).inbox = rest := rfl
@[simp] theorem State.setInbox_outbox (rest : List Event) : (s.setInbox rest).outbox = s.outbox := rfl

@[simp] theorem State.emit_buf (o : Output) : (s.emit o).buf = s.buf := rfl
@[simp] theorem State.emit_cnt (o : Output) : (s.emit o).cnt = s.cnt := rfl
@[simp] theorem State.emit_session (o : Output) : (s.emit o).session = s.session := rfl
@[simp] theorem State.emit_pix (o : Output) : (s.emit o).pix = s.pix := rfl
@[simp] theorem State.emit_pal (o : Output) : (s.emit o).pal = s.pal := rfl
@[simp] theorem State.emit_dirty (o : Output) : (s.emit o).dirty = s.dirty := rfl
@[simp] theorem State.emit_inbox (o : Output) : (s.emit o).inbox = s.inbox := rfl
@[simp] theorem State.emit_outbox (o : Output) : (s.emit o).outbox = s.outbox ++ [o] := rfl

@[simp] theorem State.refuse_buf (e : Event) : (s.refuse e).buf = s.buf := rfl
@[simp] theorem State.refuse_cnt (e : Event) : (s.refuse e).cnt = s.cnt := rfl
@[simp] theorem State.refuse_session (e : Event) : (s.refuse e).session = s.session := rfl
@[simp] theorem State.refuse_pix (e : Event) : (s.refuse e).pix = s.pix := rfl
@[simp] theorem State.refuse_pal (e : Event) : (s.refuse e).pal = s.pal := rfl
@[simp] theorem State.refuse_dirty (e : Event) : (s.refuse e).dirty = s.dirty := rfl
@[simp] theorem State.refuse_inbox (e : Event) : (s.refuse e).inbox = s.inbox := rfl
@[simp] theorem State.refuse_outbox (e : Event) : (s.refuse e).outbox = s.outbox ++ [.refused e] := rfl

@[simp] theorem State.retire_buf (o : DecodeOutcome) : (s.retire o).buf = [] := rfl
@[simp] theorem State.retire_cnt (o : DecodeOutcome) : (s.retire o).cnt = 0 := rfl
@[simp] theorem State.retire_session (o : DecodeOutcome) : (s.retire o).session = s.session := rfl
@[simp] theorem State.retire_pix (o : DecodeOutcome) : (s.retire o).pix = s.pix := rfl
@[simp] theorem State.retire_pal (o : DecodeOutcome) : (s.retire o).pal = s.pal := rfl
@[simp] theorem State.retire_dirty (o : DecodeOutcome) : (s.retire o).dirty = s.dirty := rfl
@[simp] theorem State.retire_inbox (o : DecodeOutcome) : (s.retire o).inbox = s.inbox := rfl
@[simp] theorem State.retire_outbox (o : DecodeOutcome) : (s.retire o).outbox = s.outbox ++ [.retired o] := rfl

@[simp] theorem State.raise_buf (e : Exn) : (s.raise e).buf = s.buf := rfl
@[simp] theorem State.raise_cnt (e : Exn) : (s.raise e).cnt = s.cnt := rfl
@[simp] theorem State.raise_session (e : Exn) : (s.raise e).session = e.sessionAfter s.session := rfl
@[simp] theorem State.raise_pix (e : Exn) : (s.raise e).pix = s.pix := rfl
@[simp] theorem State.raise_pal (e : Exn) : (s.raise e).pal = s.pal := rfl
@[simp] theorem State.raise_dirty (e : Exn) : (s.raise e).dirty = s.dirty := rfl
@[simp] theorem State.raise_inbox (e : Exn) : (s.raise e).inbox = s.inbox := rfl
@[simp] theorem State.raise_outbox (e : Exn) : (s.raise e).outbox = s.outbox ++ [.raised e] := rfl

@[simp] theorem State.resetEvent_buf : s.resetEvent.buf = [] := rfl
@[simp] theorem State.resetEvent_cnt : s.resetEvent.cnt = 0 := rfl
@[simp] theorem State.resetEvent_session : s.resetEvent.session = .run := rfl
@[simp] theorem State.resetEvent_pix : s.resetEvent.pix = [] := rfl
@[simp] theorem State.resetEvent_pal : s.resetEvent.pal = Vector.replicate 16 black := rfl
@[simp] theorem State.resetEvent_dirty : s.resetEvent.dirty = false := rfl
@[simp] theorem State.resetEvent_inbox : s.resetEvent.inbox = s.inbox := rfl
@[simp] theorem State.resetEvent_outbox : s.resetEvent.outbox = s.outbox := rfl

/-- The raised exception changes the session only when it is `ShortRead` (60_exceptions.md R213, R214). -/
@[simp] theorem sessionAfter_shortRead (n : Nat) (v : Session) : (Exn.shortRead n).sessionAfter v = .err := rfl

@[simp] theorem sessionAfter_paletteIndex (x y : Nat) (i : Pixel) (v : Session) :
    (Exn.paletteIndexOutOfRange x y i).sessionAfter v = v := rfl

end Sys2Proof.Machine
end

