-- ==== Sys2Proof/Laws/Ops.lean ====
section
/-! SUPPORT. What the shared operations of the instructions do: the cell walk of a tile, the two cell operations, the
screen fill and the load of a palette half. -/

namespace Sys2Proof.Machine

/-! ### Addresses -/

theorem pixelAddr?_of_inside {x y : Nat} (hx : x < 288) (hy : y < 192) : pixelAddr? x y = some (y * 288 + x) :=
  if_pos ⟨hx, hy⟩

theorem pixelAddr?_of_outside {x y : Nat} (h : 288 ≤ x ∨ 192 ≤ y) : pixelAddr? x y = none := by
  apply if_neg
  simp only [Config.width, Config.height]
  omega

theorem pixelAddr?_eq_some {x y a : Nat} :
    pixelAddr? x y = some a ↔ x < 288 ∧ y < 192 ∧ a = y * 288 + x := by
  unfold pixelAddr?
  split
  · simp_all [eq_comm]
  · simp_all

/-! ### The cells of a tile -/

theorem mem_tileCoords (c : Fin 6 × Fin 12) : c ∈ tileCoords := by
  simp [tileCoords, Prod.ext_iff]

theorem tileCoords_length : tileCoords.length = 72 := by decide

theorem tileCoords_nodup : tileCoords.Nodup := by decide

/-- A cell of the walk, in numbers. -/
theorem mem_tileCells {b : TileBlock} {a : Nat} {c : Pixel} :
    (a, c) ∈ tileCells b ↔ ∃ cx : Fin 6, ∃ cy : Fin 12,
      tileX0 b + cx < 288 ∧ tileY0 b + cy < 192 ∧ a = (tileY0 b + cy) * 288 + (tileX0 b + cx) ∧ c = cellColor b cx cy := by
  simp only [tileCells, List.mem_filterMap, mem_tileCoords, true_and, Prod.exists, tileCell?, Option.map_eq_some_iff,
    Prod.mk.injEq, pixelAddr?_eq_some]
  constructor
  · rintro ⟨cx, cy, a', ⟨h1, h2, rfl⟩, rfl, rfl⟩
    exact ⟨cx, cy, h1, h2, rfl, rfl⟩
  · rintro ⟨cx, cy, h1, h2, rfl, rfl⟩
    exact ⟨cx, cy, _, ⟨h1, h2, rfl⟩, rfl, rfl⟩

/-- Every cell of a tile outside the grid is skipped (20_memory.md R60). -/
theorem tileCells_of_outside {b : TileBlock} (h : 48 ≤ b.column.toNat ∨ 16 ≤ b.row.toNat) : tileCells b = [] := by
  rw [tileCells, List.filterMap_eq_nil_iff]
  intro c _
  rw [tileCell?, pixelAddr?_of_outside]
  · rfl
  · simp only [tileX0, tileY0, Config.tileW, Config.tileH]
    omega

/-- No cell of a tile inside the grid is skipped (20_memory.md R60). -/
theorem tileCells_of_inside {b : TileBlock} (hc : b.column.toNat ≤ 47) (hr : b.row.toNat ≤ 15) :
    tileCells b = tileCoords.map fun c =>
      ((tileY0 b + c.2) * 288 + (tileX0 b + c.1), cellColor b c.1 c.2) := by
  have h : ∀ c, tileCell? b c = some ((tileY0 b + c.2) * 288 + (tileX0 b + c.1), cellColor b c.1 c.2) := by
    intro c
    have h1 := c.1.isLt
    have h2 := c.2.isLt
    rw [tileCell?, pixelAddr?_of_inside (by simp only [tileX0, Config.tileW]; omega)
      (by simp only [tileY0, Config.tileH]; omega)]
    rfl
  rw [tileCells, ← List.filterMap_eq_map]
  congr 1
  funext c
  exact h c

/-- Every address of the walk lies in the RAM (20_memory.md R59). -/
theorem tileCells_lt {b : TileBlock} {p : Nat × Pixel} (h : p ∈ tileCells b) : p.1 < Config.nPix := by
  obtain ⟨a, c⟩ := p
  obtain ⟨cx, cy, h1, h2, rfl, -⟩ := mem_tileCells.mp h
  simp only [Config.nPix]
  omega

/-- "The 72 cells have 72 distinct addresses" (42_tile_block.md R152). -/
theorem tileCells_nodup (b : TileBlock) : ((tileCells b).map Prod.fst).Nodup := by
  by_cases h : 48 ≤ b.column.toNat ∨ 16 ≤ b.row.toNat
  · rw [tileCells_of_outside h]
    exact List.nodup_nil
  · rw [tileCells_of_inside (by omega) (by omega), List.map_map]
    refine tileCoords_nodup.map_on fun c _ d _ hcd => ?_
    have h1 := c.1.isLt
    have h2 := d.1.isLt
    have h3 := b.column.isLt
    simp only [Function.comp, tileX0, tileY0, Config.tileW, Config.tileH] at hcd
    apply Prod.ext <;> apply Fin.ext <;> omega

/-- The pixel `(x, y)` is in the tile exactly when its grid position is the tile's. -/
theorem mem_tileCells_at {b : TileBlock} {x y : Nat} (hx : x < 288) (hy : y < 192) (c : Pixel) :
    (y * 288 + x, c) ∈ tileCells b ↔
      x / 6 = b.column.toNat ∧ y / 12 = b.row.toNat ∧ c = cellColor b (Fin.ofNat 6 x) (Fin.ofNat 12 y) := by
  rw [mem_tileCells]
  constructor
  · rintro ⟨cx, cy, h1, h2, h3, rfl⟩
    have h4 := cx.isLt
    have h5 := cy.isLt
    simp only [tileX0, tileY0, Config.tileW, Config.tileH] at h1 h2 h3
    have ex : x = b.column.toNat * 6 + cx := by omega
    have ey : y = b.row.toNat * 12 + cy := by omega
    refine ⟨by omega, by omega, ?_⟩
    congr 1 <;> apply Fin.ext <;> simp only [Fin.ofNat] <;> omega
  · rintro ⟨h1, h2, rfl⟩
    refine ⟨Fin.ofNat 6 x, Fin.ofNat 12 y, ?_, ?_, ?_, rfl⟩ <;>
      simp only [tileX0, tileY0, Config.tileW, Config.tileH, Fin.ofNat] <;> omega

/-! ### The cell operations -/

/-- One cell of a walk whose cell operation stores `op (old value) (colour operand)`. -/
def State.cellWith (op : Pixel → Pixel → Pixel) (s : State) (cell : Nat × Pixel) : State :=
  s.pixWrite cell.1 (op (s.pixRead cell.1) cell.2)

theorem overwriteCell_eq : State.overwriteCell = State.cellWith fun _ c => c := rfl

theorem xorCell_eq : State.xorCell = State.cellWith fun p c => p ^^^ c := rfl

/-- What a walk changes besides the pixel RAM: `DIRTY`, if it has a cell at all. -/
theorem foldl_cellWith_frame (op : Pixel → Pixel → Pixel) (l : List (Nat × Pixel)) (s : State) :
    l.foldl (State.cellWith op) s =
      { s with pix := (l.foldl (State.cellWith op) s).pix, dirty := s.dirty || !l.isEmpty } := by
  induction l generalizing s with
  | nil => simp
  | cons c l ih =>
    rw [List.foldl_cons, ih (s.cellWith op c)]
    simp [State.cellWith, State.pixWrite, State.setDirty]

/-- What a walk over distinct addresses does to the pixel RAM. -/
theorem foldl_cellWith_pix (op : Pixel → Pixel → Pixel) (l : List (Nat × Pixel)) (s : State) (hs : s.pix.wf = true)
    (hl : ∀ p ∈ l, p.1 < Config.nPix) (hd : (l.map Prod.fst).Nodup) :
    (l.foldl (State.cellWith op) s).pix.wf = true ∧
    (∀ a c, (a, c) ∈ l → (l.foldl (State.cellWith op) s).pix.read a = op (s.pix.read a) c) ∧
    (∀ a, (∀ c, (a, c) ∉ l) → (l.foldl (State.cellWith op) s).pix.read a = s.pix.read a) := by
  induction l generalizing s with
  | nil => exact ⟨hs, by simp, by simp⟩
  | cons p l ih =>
    obtain ⟨k, v⟩ := p
    rw [List.map_cons, List.nodup_cons] at hd
    have hk : k < Config.nPix := hl (k, v) List.mem_cons_self
    have hs' : (s.cellWith op (k, v)).pix.wf = true := Memory.wf_write hs _ hk
    have hr : ∀ b, (s.cellWith op (k, v)).pix.read b = if b = k then op (s.pix.read k) v else s.pix.read b :=
      Memory.read_write hs k _
    obtain ⟨h1, h2, h3⟩ := ih (s.cellWith op (k, v)) hs' (fun p hp => hl p (List.mem_cons_of_mem _ hp)) hd.2
    have hkl : ∀ c, (k, c) ∉ l := fun c hc => hd.1 (List.mem_map.mpr ⟨(k, c), hc, rfl⟩)
    refine ⟨h1, fun a c hac => ?_, fun a ha => ?_⟩
    · rcases List.mem_cons.mp hac with heq | hmem
      · obtain ⟨rfl, rfl⟩ := Prod.mk.injEq .. ▸ heq
        rw [List.foldl_cons, h3 a hkl, hr, if_pos rfl]
      · have hne : a ≠ k := fun h => hkl c (h ▸ hmem)
        rw [List.foldl_cons, h2 a c hmem, hr, if_neg hne]
    · have hne : a ≠ k := fun h => ha v (h ▸ List.mem_cons_self)
      rw [List.foldl_cons, h3 a fun c hc => ha c (List.mem_cons_of_mem _ hc), hr, if_neg hne]

/-- The pixel RAM after the walk of a tile, pixel by pixel. -/
theorem tileWalk_read (op : Pixel → Pixel → Pixel) (b : TileBlock) (s : State) (hs : s.pix.wf = true) {x y : Nat}
    (hx : x < 288) (hy : y < 192) :
    ((tileCells b).foldl (State.cellWith op) s).pix.read (y * 288 + x) =
      if x / 6 = b.column.toNat ∧ y / 12 = b.row.toNat then
        op (s.pix.read (y * 288 + x)) (cellColor b (Fin.ofNat 6 x) (Fin.ofNat 12 y))
      else s.pix.read (y * 288 + x) := by
  obtain ⟨-, h2, h3⟩ := foldl_cellWith_pix op (tileCells b) s hs (fun _ => tileCells_lt) (tileCells_nodup b)
  split
  case isTrue h => exact h2 _ _ ((mem_tileCells_at hx hy _).mpr ⟨h.1, h.2, rfl⟩)
  case isFalse h =>
    exact h3 _ fun c hc => h ⟨((mem_tileCells_at hx hy c).mp hc).1, ((mem_tileCells_at hx hy c).mp hc).2.1⟩

theorem tileWalk_wf (op : Pixel → Pixel → Pixel) (b : TileBlock) (s : State) (hs : s.pix.wf = true) :
    ((tileCells b).foldl (State.cellWith op) s).pix.wf = true :=
  (foldl_cellWith_pix op (tileCells b) s hs (fun _ => tileCells_lt) (tileCells_nodup b)).1

/-- A walk has a cell exactly when the tile is inside the grid. -/
theorem tileCells_isEmpty (b : TileBlock) :
    (tileCells b).isEmpty = !(decide (b.column.toNat ≤ 47) && decide (b.row.toNat ≤ 15)) := by
  by_cases h : 48 ≤ b.column.toNat ∨ 16 ≤ b.row.toNat
  · rw [tileCells_of_outside h]
    simp
    omega
  · rw [tileCells_of_inside (by omega) (by omega)]
    have h1 : b.column.toNat ≤ 47 := by omega
    have h2 : b.row.toNat ≤ 15 := by omega
    simp [h1, h2, ← List.length_eq_zero_iff, tileCoords_length]

/-- Every address of the RAM is that of one pixel. -/
theorem addr_split {a : Nat} (h : a < Config.nPix) : a % 288 < 288 ∧ a / 288 < 192 ∧ a / 288 * 288 + a % 288 = a := by
  simp only [Config.nPix] at h
  omega

/-- Two canonical pixel RAMs that agree on every pixel of the grid are equal. -/
theorem Memory.ext_of_grid {m n : Memory} (hm : m.wf = true) (hn : n.wf = true)
    (h : ∀ x y, x < 288 → y < 192 → m.read (y * 288 + x) = n.read (y * 288 + x)) : m = n := by
  refine Memory.ext_of_wf hm hn fun a ha => ?_
  obtain ⟨h1, h2, h3⟩ := addr_split ha
  rw [← h3]
  exact h _ _ h1 h2

/-! ### The palette -/

theorem palSlot_val (h : PalHalf) (i : Fin 8) : (h.slot i).val = h.offset + i := rfl

/-- What a load of a palette half changes besides the palette: `DIRTY`. -/
theorem loadHalf_frame (s : State) (h : PalHalf) (colors : Vector Rgb 8) :
    s.loadHalf h colors = { s with pal := (s.loadHalf h colors).pal, dirty := true } := by
  simp [State.loadHalf, List.finRange_succ, State.palWrite, State.setDirty]

/-- The palette after a load of one half (44_color_table.md R175, R176). -/
theorem loadHalf_pal (s : State) (h : PalHalf) (colors : Vector Rgb 8) (i : Fin 16) :
    (s.loadHalf h colors).pal[i] =
      if i.val / 8 = h.offset / 8 then colors[Fin.ofNat 8 i.val] else s.pal[i] := by
  have hcases : ∀ i : Fin 16, i = 0 ∨ i = 1 ∨ i = 2 ∨ i = 3 ∨ i = 4 ∨ i = 5 ∨ i = 6 ∨ i = 7 ∨ i = 8 ∨ i = 9 ∨ i = 10 ∨
      i = 11 ∨ i = 12 ∨ i = 13 ∨ i = 14 ∨ i = 15 := by decide
  rcases hcases i with rfl | rfl | rfl | rfl | rfl | rfl | rfl | rfl | rfl | rfl | rfl | rfl | rfl | rfl | rfl | rfl <;>
    cases h <;>
    simp [State.loadHalf, List.finRange_succ, PalHalf.slot, PalHalf.offset]


theorem resolveEntries_get (es : ClutEntries) (i : Fin 8) : (resolveEntries es)[i] = resolveEntry es[i] := by
  match i with
  | 0 | 1 | 2 | 3 | 4 | 5 | 6 | 7 => rfl

theorem resolveEntry_toNat (e : Rgb444) :
    (resolveEntry e).r.toNat = e.toNat / 256 % 16 * 17 ∧ (resolveEntry e).g.toNat = e.toNat / 16 % 16 * 17 ∧
      (resolveEntry e).b.toNat = e.toNat % 16 * 17 := by
  simp [resolveEntry, x17_toNat, BitVec.extractLsb'_toNat, Nat.shiftRight_eq_div_pow]

end Sys2Proof.Machine
end

