-- ==== Sys2Proof/Laws/Exec.lean ====
section
/-! SUPPORT. Everything exec can do, said once: the screen after an instruction is a function of the screen before it
and of the instruction (00_scope.md R13, `apply`), and nothing else changes. -/

namespace Sys2Proof.Machine

/-- The pixel RAM after an instruction. -/
def pixAfter : Instr → Memory → Memory
  | .memPre color _, _ => Memory.fill (color.setWidth 6)
  | .tile b, m => (tileCells b).foldl (fun m p => m.write p.1 p.2) m
  | .tileX b, m => (tileCells b).foldl (fun m p => m.write p.1 (m.read p.1 ^^^ p.2)) m
  | _, m => m

/-- The palette after a load of one half. -/
def halfAfter (h : PalHalf) (colors : Vector Rgb 8) (pal : Vector Rgb 16) : Vector Rgb 16 :=
  (List.finRange 8).foldl (fun p i => p.set (h.slot i) colors[i]) pal

/-- The palette RAM after an instruction. -/
def palAfter : Instr → Vector Rgb 16 → Vector Rgb 16
  | .clutLo es, pal => halfAfter .low (resolveEntries es) pal
  | .clutHi es, pal => halfAfter .high (resolveEntries es) pal
  | _, pal => pal

/-- The state after an instruction. -/
def State.applied (i : Instr) (s : State) : State :=
  { s with pix := pixAfter i s.pix, pal := palAfter i s.pal, dirty := s.dirty || performsWrite i }

variable (i : Instr) (s : State)

@[simp] theorem applied_buf : (s.applied i).buf = s.buf := rfl
@[simp] theorem applied_cnt : (s.applied i).cnt = s.cnt := rfl
@[simp] theorem applied_session : (s.applied i).session = s.session := rfl
@[simp] theorem applied_pix : (s.applied i).pix = pixAfter i s.pix := rfl
@[simp] theorem applied_pal : (s.applied i).pal = palAfter i s.pal := rfl
@[simp] theorem applied_dirty : (s.applied i).dirty = (s.dirty || performsWrite i) := rfl
@[simp] theorem applied_inbox : (s.applied i).inbox = s.inbox := rfl
@[simp] theorem applied_outbox : (s.applied i).outbox = s.outbox := rfl

theorem foldl_cellWith_pix_eq (op : Pixel → Pixel → Pixel) (l : List (Nat × Pixel)) (s : State) :
    (l.foldl (State.cellWith op) s).pix = l.foldl (fun m p => m.write p.1 (op (m.read p.1) p.2)) s.pix := by
  induction l generalizing s with
  | nil => rfl
  | cons p l ih => rw [List.foldl_cons, List.foldl_cons, ih]; rfl

theorem loadHalf_pal_eq (h : PalHalf) (colors : Vector Rgb 8) (s : State) :
    (s.loadHalf h colors).pal = halfAfter h colors s.pal := by
  unfold State.loadHalf halfAfter
  generalize List.finRange 8 = l
  induction l generalizing s with
  | nil => rfl
  | cons i l ih => rw [List.foldl_cons, List.foldl_cons, ih]; rfl

/-- Everything exec does. -/
theorem exec_eq : exec i s = .next (s.applied i) := by
  cases i with
  | memPre color reps => simp [exec, execMemPre, State.applied, State.pixFill, State.setDirty, pixAfter, palAfter, performsWrite]
  | border => simp [exec, execBorder, State.applied, pixAfter, palAfter, performsWrite]
  | tile b =>
    rw [exec, execTile, overwriteCell_eq, foldl_cellWith_frame, foldl_cellWith_pix_eq, tileCells_isEmpty, Bool.not_not]
    rfl
  | scrlP f => simp [exec, execScrlP, State.applied, pixAfter, palAfter, performsWrite]
  | scrlC f => simp [exec, execScrlC, State.applied, pixAfter, palAfter, performsWrite]
  | transp => simp [exec, execTransp, State.applied, pixAfter, palAfter, performsWrite]
  | clutLo es =>
    rw [exec, execClutLo, loadHalf_frame, loadHalf_pal_eq]
    simp [State.applied, pixAfter, palAfter, performsWrite]
  | clutHi es =>
    rw [exec, execClutHi, loadHalf_frame, loadHalf_pal_eq]
    simp [State.applied, pixAfter, palAfter, performsWrite]
  | tileX b =>
    rw [exec, execTileX, xorCell_eq, foldl_cellWith_frame, foldl_cellWith_pix_eq, tileCells_isEmpty, Bool.not_not]
    rfl
  | unsup code => simp [exec, execUnsup, State.applied, pixAfter, palAfter, performsWrite]
  | notCmd => simp [exec, execNotCmd, State.applied, pixAfter, palAfter, performsWrite]

/-! ### The pixel RAM after each writer -/

theorem pixAfter_memPre_read (color reps : Nibble) (m : Memory) {a : Nat} (h : a < 55296) :
    (pixAfter (.memPre color reps) m).read a = color.setWidth 6 := by
  rw [pixAfter, Memory.read_fill, if_pos h]

/-- `TILE` pixel by pixel. -/
theorem pixAfter_tile_read (b : TileBlock) {m : Memory} (hm : m.wf = true) {x y : Nat} (hx : x < 288) (hy : y < 192) :
    (pixAfter (.tile b) m).read (y * 288 + x) =
      if x / 6 = b.column.toNat ∧ y / 12 = b.row.toNat then cellColor b (Fin.ofNat 6 x) (Fin.ofNat 12 y)
      else m.read (y * 288 + x) := by
  have h := tileWalk_read (fun _ c => c) b { State.reset with pix := m } hm hx hy
  rwa [foldl_cellWith_pix_eq] at h

/-- `TILEX` pixel by pixel. -/
theorem pixAfter_tileX_read (b : TileBlock) {m : Memory} (hm : m.wf = true) {x y : Nat} (hx : x < 288) (hy : y < 192) :
    (pixAfter (.tileX b) m).read (y * 288 + x) =
      if x / 6 = b.column.toNat ∧ y / 12 = b.row.toNat then
        m.read (y * 288 + x) ^^^ cellColor b (Fin.ofNat 6 x) (Fin.ofNat 12 y)
      else m.read (y * 288 + x) := by
  have h := tileWalk_read (fun p c => p ^^^ c) b { State.reset with pix := m } hm hx hy
  rwa [foldl_cellWith_pix_eq] at h

/-- Every instruction keeps the canonical form of the pixel RAM. -/
theorem pixAfter_wf {m : Memory} (hm : m.wf = true) : (pixAfter i m).wf = true := by
  cases i with
  | memPre color reps => exact Memory.wf_fill _
  | tile b =>
    have h := tileWalk_wf (fun _ c => c) b { State.reset with pix := m } hm
    rwa [foldl_cellWith_pix_eq] at h
  | tileX b =>
    have h := tileWalk_wf (fun p c => p ^^^ c) b { State.reset with pix := m } hm
    rwa [foldl_cellWith_pix_eq] at h
  | border | scrlP | scrlC | transp | clutLo | clutHi | unsup | notCmd => exact hm

/-- A tile outside the grid leaves the pixel RAM as it is. -/
theorem pixAfter_outside (b : TileBlock) (m : Memory) (h : 48 ≤ b.column.toNat ∨ 16 ≤ b.row.toNat) :
    pixAfter (.tile b) m = m ∧ pixAfter (.tileX b) m = m := by
  simp [pixAfter, tileCells_of_outside h]

/-! ### The palette after each writer -/

theorem halfAfter_get (h : PalHalf) (colors : Vector Rgb 8) (pal : Vector Rgb 16) (i : Fin 16) :
    (halfAfter h colors pal)[i] =
      if i.val / 8 = h.offset / 8 then colors[Fin.ofNat 8 i.val] else pal[i] := by
  have h' := loadHalf_pal { State.reset with pal := pal } h colors i
  rwa [loadHalf_pal_eq] at h'

/-- `CLUTLO` entry by entry: `PAL[0..7]` are the loaded colours, `PAL[8..15]` as before (44_color_table.md R175). -/
theorem halfAfter_low (es : ClutEntries) (pal : Vector Rgb 16) (i : Fin 8) :
    (halfAfter .low (resolveEntries es) pal)[i.val] = resolveEntry es[i] ∧
      (halfAfter .low (resolveEntries es) pal)[8 + i.val] = pal[8 + i.val] := by
  have hi : Fin.ofNat 8 i.val = i := Fin.ext (Nat.mod_eq_of_lt i.isLt)
  refine ⟨?_, (halfAfter_get .low _ pal ⟨8 + i.val, by omega⟩).trans (if_neg ?_)⟩
  · refine (halfAfter_get .low _ pal ⟨i.val, by omega⟩).trans ((if_pos ?_).trans ?_)
    · show i.val / 8 = 0 / 8
      omega
    · exact (congrArg (fun j : Fin 8 => (resolveEntries es)[j]) hi).trans (resolveEntries_get es i)
  · show ¬ (8 + i.val) / 8 = 0 / 8
    omega

/-- `CLUTHI` entry by entry: `PAL[8..15]` are the loaded colours, `PAL[0..7]` as before (44_color_table.md R176). -/
theorem halfAfter_high (es : ClutEntries) (pal : Vector Rgb 16) (i : Fin 8) :
    (halfAfter .high (resolveEntries es) pal)[8 + i.val] = resolveEntry es[i] ∧
      (halfAfter .high (resolveEntries es) pal)[i.val] = pal[i.val] := by
  have hi : Fin.ofNat 8 (8 + i.val) = i := Fin.ext (by simp)
  refine ⟨?_, (halfAfter_get .high _ pal ⟨i.val, by omega⟩).trans (if_neg ?_)⟩
  · refine (halfAfter_get .high _ pal ⟨8 + i.val, by omega⟩).trans ((if_pos ?_).trans ?_)
    · show (8 + i.val) / 8 = 8 / 8
      omega
    · exact (congrArg (fun j : Fin 8 => (resolveEntries es)[j]) hi).trans (resolveEntries_get es i)
  · show ¬ i.val / 8 = 8 / 8
    omega

theorem resolveEntry_expanded (e : Rgb444) : (resolveEntry e).expanded = true := by
  obtain ⟨hr, hg, hb⟩ := resolveEntry_toNat e
  simp [Rgb.expanded, hr, hg, hb]

/-- Every instruction keeps the palette-value closure (10_state.md R29). -/
theorem palAfter_expanded {pal : Vector Rgb 16} (h : ∀ j : Fin 16, pal[j].expanded = true) (j : Fin 16) :
    (palAfter i pal)[j].expanded = true := by
  cases i with
  | clutLo es =>
    rw [palAfter, halfAfter_get]
    split
    · rw [resolveEntries_get]; exact resolveEntry_expanded _
    · exact h j
  | clutHi es =>
    rw [palAfter, halfAfter_get]
    split
    · rw [resolveEntries_get]; exact resolveEntry_expanded _
    · exact h j
  | memPre | border | tile | scrlP | scrlC | transp | tileX | unsup | notCmd => exact h j

end Sys2Proof.Machine
end

