-- ==== Sys2Proof/Laws/PerInstr.lean ====
section
/-! SUPPORT. What holds of every instruction as syntax, one lemma per constructor: the shape of its canonical packet. -/

namespace Sys2Proof.Laws.CanonicalPacket

/-- The shape of a canonical packet (30_encoding.md R100): parity zero, and bits 7:6 of every byte zero. -/
def Statement (i : Instr) : Prop :=
  (encodePacket i).parityQ = #v[0, 0] ∧ (encodePacket i).parityP = #v[0, 0, 0, 0] ∧ ∀ b ∈ encode i, b.toNat < 64

theorem setWidth_lt {n : Nat} (x : BitVec n) (h : n ≤ 6) : (x.setWidth 8 : Byte).toNat < 64 := by
  have h1 := x.isLt
  have h2 : 2 ^ n ≤ 2 ^ 6 := Nat.pow_le_pow_right (by omega) h
  rw [BitVec.toNat_setWidth]
  exact Nat.lt_of_le_of_lt (Nat.mod_le _ _) (by omega)

theorem high_lt (a : BitVec 2) {n : Nat} (b : BitVec n) (h : n ≤ 4) :
    ((a.setWidth 8 <<< 4) ||| b.setWidth 8 : Byte).toNat < 64 := by
  have h1 := a.isLt
  have h2 := b.isLt
  have h3 : 2 ^ n ≤ 2 ^ 4 := Nat.pow_le_pow_right (by omega) h
  rw [BitVec.toNat_or]
  refine Nat.or_lt_two_pow (n := 6) ?_ ?_
  · simp only [BitVec.toNat_shiftLeft, BitVec.toNat_setWidth, Nat.shiftLeft_eq]
    omega
  · exact setWidth_lt b (by omega)

theorem entryHigh_lt (e : Rgb444) : (entryHigh e).toNat < 64 := setWidth_lt _ (Nat.le_refl 6)

theorem entryLow_lt (e : Rgb444) : (entryLow e).toNat < 64 := setWidth_lt _ (Nat.le_refl 6)

/-- A command packet has the shape if its payload bytes do. -/
theorem command_bytes {code : BitVec 6} {pl : Vector Byte 16} (h : ∀ b ∈ pl.toList, b.toNat < 64) :
    ∀ b ∈ (commandPacket code pl).toBytes, b.toNat < 64 := by
  intro b hb
  simp only [commandPacket, Packet.toBytes, List.mem_cons, List.mem_append] at hb
  rcases hb with rfl | rfl | hb | hb | hb
  · decide
  · exact setWidth_lt code (Nat.le_refl 6)
  · simp at hb; subst hb; decide
  · exact h b hb
  · simp at hb; subst hb; decide

theorem zero_bytes : ∀ b ∈ zeroPayload.toList, b.toNat < 64 := by decide

theorem tile_bytes (t : TileBlock) : ∀ b ∈ (encodeTile t).toList, b.toNat < 64 := by
  intro b hb
  simp only [encodeTile, Vector.toList_mk, List.mem_cons, List.not_mem_nil, or_false] at hb
  rcases hb with rfl | rfl | rfl | rfl | rfl | rfl | rfl | rfl | rfl | rfl | rfl | rfl | rfl | rfl | rfl | rfl <;>
    exact setWidth_lt _ (by decide)

theorem scroll_bytes (f : ScrollFields) : ∀ b ∈ (encodeScroll f).toList, b.toNat < 64 := by
  intro b hb
  simp only [encodeScroll, Vector.toList_mk, List.mem_cons, List.not_mem_nil, or_false] at hb
  rcases hb with rfl | rfl | rfl | hb
  · exact setWidth_lt _ (by decide)
  · exact high_lt _ _ (by decide)
  · exact high_lt _ _ (by decide)
  · have : b = 0 := by simpa using hb
    subst this; decide

theorem entries_bytes (es : ClutEntries) : ∀ b ∈ (encodeEntries es).toList, b.toNat < 64 := by
  intro b hb
  simp only [encodeEntries, Vector.toList_mk, List.mem_cons, List.not_mem_nil, or_false] at hb
  rcases hb with rfl | rfl | rfl | rfl | rfl | rfl | rfl | rfl | rfl | rfl | rfl | rfl | rfl | rfl | rfl | rfl <;>
    first | with_reducible exact entryHigh_lt _ | with_reducible exact entryLow_lt _

theorem memPre (color reps : Nibble) : Statement (.memPre color reps) := by
  refine ⟨rfl, rfl, command_bytes fun b hb => ?_⟩
  simp only [encodePreset, Vector.toList_mk, List.mem_cons, List.not_mem_nil, or_false] at hb
  rcases hb with rfl | rfl | hb
  · exact setWidth_lt _ (by decide)
  · exact setWidth_lt _ (by decide)
  · have : b = 0 := by simpa using hb
    subst this; decide

theorem border : Statement .border := ⟨rfl, rfl, command_bytes zero_bytes⟩

theorem tile (b : TileBlock) : Statement (.tile b) := ⟨rfl, rfl, command_bytes (tile_bytes b)⟩

theorem scrlP (f : ScrollFields) : Statement (.scrlP f) := ⟨rfl, rfl, command_bytes (scroll_bytes f)⟩

theorem scrlC (f : ScrollFields) : Statement (.scrlC f) := ⟨rfl, rfl, command_bytes (scroll_bytes f)⟩

theorem transp : Statement .transp := ⟨rfl, rfl, command_bytes zero_bytes⟩

theorem clutLo (es : ClutEntries) : Statement (.clutLo es) := ⟨rfl, rfl, command_bytes (entries_bytes es)⟩

theorem clutHi (es : ClutEntries) : Statement (.clutHi es) := ⟨rfl, rfl, command_bytes (entries_bytes es)⟩

theorem tileX (b : TileBlock) : Statement (.tileX b) := ⟨rfl, rfl, command_bytes (tile_bytes b)⟩

theorem unsup (code : BitVec 6) : Statement (.unsup code) := ⟨rfl, rfl, command_bytes zero_bytes⟩

theorem notCmd : Statement .notCmd := ⟨rfl, rfl, by decide⟩

end Sys2Proof.Laws.CanonicalPacket
end

