-- ==== Sys2Proof/Laws/Step.lean ====
section
/-! SUPPORT. What each event does and what a step can do, each said once. -/

namespace Sys2Proof.Machine

/-! ### A step takes the oldest event -/

theorem step_idle {s : State} (h : s.inbox = []) : step s = .next s := by rw [step, h]

theorem step_event {s : State} {e : Event} {rest : List Event} (h : s.inbox = e :: rest) :
    step s = react e (s.setInbox rest) := by rw [step, h]

/-! ### The stream events -/

/-- A packet's whole effect. -/
theorem applyPacket_eq (p : Packet) (s : State) :
    applyPacket p s = .next ((s.applied (decode p)).retire (outcomeOf (decode p))) := by
  rw [applyPacket, exec_eq]

theorem pushByte_refused (b : Byte) {s : State} (h : s.session ≠ .run) :
    pushByte b s = .next (s.refuse (.pushByte b)) := by rw [pushByte, if_neg h]

theorem pushByte_store (b : Byte) {s : State} (h : s.session = .run) (hc : s.cnt.val + 1 < 24) :
    pushByte b s = .next ((s.storeByte b).setCnt ⟨s.cnt.val + 1, hc⟩) := by
  rw [pushByte, if_pos h, dif_pos hc]

theorem pushByte_complete (b : Byte) {s : State} (h : s.session = .run) (hc : s.cnt.val = 23) :
    pushByte b s = retirePacket (s.storeByte b) := by
  rw [pushByte, if_pos h, dif_neg (by simp [hc])]

theorem retirePacket_eq {s : State} {p : Packet} (h : Packet.ofBytes s.buf = some p) :
    retirePacket s = applyPacket p s := by rw [retirePacket, h]

/-- With 23 bytes buffered, the 24th always completes a packet. -/
theorem storeByte_packet (b : Byte) {s : State} (hl : s.buf.length = s.cnt.val) (hc : s.cnt.val = 23) :
    ∃ p, Packet.ofBytes (s.storeByte b).buf = some p ∧ p.toBytes = s.buf ++ [b] := by
  have hb : (s.storeByte b).buf = s.buf ++ [b] := by
    rw [State.storeByte_buf, List.take_of_length_le (by omega)]
  obtain ⟨p, hp⟩ := Packet.ofBytes_exists (bs := (s.storeByte b).buf) (by rw [hb]; simp [hl, hc])
  exact ⟨p, hp, by rw [Packet.toBytes_of_ofBytes hp, hb]⟩

theorem endOfStream_refused {s : State} (h : s.session ≠ .run) :
    endOfStream s = .next (s.refuse .endOfStream) := by rw [endOfStream, if_neg h]

theorem endOfStream_clean {s : State} (h : s.session = .run) (hc : s.cnt.val = 0) :
    endOfStream s = .next ((s.setSession .done).emit .cleanEnd) := by rw [endOfStream, if_pos h, if_pos hc]

theorem endOfStream_short {s : State} (h : s.session = .run) (hc : s.cnt.val ≠ 0) :
    endOfStream s = .next (s.raise (.shortRead s.cnt.val)) := by rw [endOfStream, if_pos h, if_neg hc]

/-! ### The host's reads -/

theorem hostReadPixel_inside {x y : Nat} (s : State) (hx : x < 288) (hy : y < 192) :
    hostReadPixel x y s = s.emit (.pixel (s.pix.read (y * 288 + x))) := by
  rw [hostReadPixel, pixelAddr?_of_inside hx hy]
  rfl

theorem hostReadPixel_outside {x y : Nat} (s : State) (h : 288 ≤ x ∨ 192 ≤ y) :
    hostReadPixel x y s = s.refuse (.readPixel x y) := by rw [hostReadPixel, pixelAddr?_of_outside h]

theorem resolve?_inside {x y : Nat} (s : State) (hx : x < 288) (hy : y < 192) :
    s.resolve? x y = some (s.lookupIndex x y (s.pix.read (y * 288 + x))) := by
  rw [State.resolve?, pixelAddr?_of_inside hx hy]
  rfl

theorem resolve?_outside {x y : Nat} (s : State) (h : 288 ≤ x ∨ 192 ≤ y) : s.resolve? x y = none := by
  rw [State.resolve?, pixelAddr?_of_outside h]
  rfl

theorem lookupIndex_color (s : State) (x y : Nat) {idx : Pixel} (h : idx.toNat < 16) :
    s.lookupIndex x y idx = .color (opaqueColor s.pal[idx.toNat]) := by
  rw [State.lookupIndex, dif_pos h]
  rfl

theorem lookupIndex_error (s : State) (x y : Nat) {idx : Pixel} (h : 16 ≤ idx.toNat) :
    s.lookupIndex x y idx = .error (.paletteIndexOutOfRange x y idx) := by
  rw [State.lookupIndex, dif_neg (by omega)]

/-- A look-up raises nothing but `PaletteIndexOutOfRange`. -/
theorem lookupIndex_cases (s : State) (x y : Nat) (idx : Pixel) :
    (∃ c, s.lookupIndex x y idx = .color c) ∨ s.lookupIndex x y idx = .error (.paletteIndexOutOfRange x y idx) := by
  by_cases h : idx.toNat < 16
  · exact .inl ⟨_, lookupIndex_color s x y h⟩
  · exact .inr (lookupIndex_error s x y (by omega))

/-! ### What an event can do -/

/-- The screen and the framer are as they were: a read, a refusal, an idle moment. Only the outputs may have grown. -/
def Observes (s t : State) : Prop := ∃ os, t = { s with outbox := s.outbox ++ os } ∧ os.length ≤ 1 ∧ ∀ o, Output.retired o ∉ os

theorem observes_refuse (s : State) (e : Event) : Observes s (s.refuse e) :=
  ⟨[.refused e], rfl, by simp, by simp⟩

theorem observes_emit (s : State) {o : Output} (h : ∀ r, o ≠ .retired r) : Observes s (s.emit o) :=
  ⟨[o], rfl, by simp, fun r hr => h r (List.mem_singleton.mp hr).symm⟩

theorem observes_readPixel (x y : Nat) (s : State) : Observes s (hostReadPixel x y s) := by
  rw [hostReadPixel]
  split
  · exact observes_emit s (by simp)
  · exact observes_refuse s _

theorem observes_resolve (x y : Nat) (s : State) : Observes s (hostResolve x y s) := by
  by_cases h : x < 288 ∧ y < 192
  · rw [hostResolve, resolve?_inside s h.1 h.2]
    rcases lookupIndex_cases s x y (s.pix.read (y * 288 + x)) with ⟨c, hc⟩ | he
    · rw [hc]; exact observes_emit s (by simp)
    · rw [he]; exact observes_emit s (by simp)
  · rw [hostResolve, resolve?_outside s (by omega)]
    exact observes_refuse s _

/-- Everything an event can do to the state, guards included. -/
theorem react_cases {e : Event} {s t : State} (h : react e s = .next t) :
    (∃ b, e = .pushByte b ∧ s.session = .run ∧
      ∃ hc : s.cnt.val + 1 < 24, t = (s.storeByte b).setCnt ⟨s.cnt.val + 1, hc⟩) ∨
    (∃ b p, e = .pushByte b ∧ s.session = .run ∧ s.cnt.val = 23 ∧ Packet.ofBytes (s.storeByte b).buf = some p ∧
      t = ((s.storeByte b).applied (decode p)).retire (outcomeOf (decode p))) ∨
    (e = .endOfStream ∧ s.session = .run ∧ s.cnt.val = 0 ∧ t = (s.setSession .done).emit .cleanEnd) ∨
    (e = .endOfStream ∧ s.session = .run ∧ s.cnt.val ≠ 0 ∧ t = s.raise (.shortRead s.cnt.val)) ∨
    (e = .clearDirty ∧ t = s.clearDirty) ∨
    (e = .reset ∧ t = s.resetEvent) ∨
    (e ≠ .clearDirty ∧ e ≠ .reset ∧ (s.session = .run → (∀ b, e ≠ .pushByte b) ∧ e ≠ .endOfStream) ∧ Observes s t) := by
  cases e with
  | pushByte b =>
    by_cases hr : s.session = .run
    · by_cases hc : s.cnt.val + 1 < 24
      · rw [react, pushByte_store b hr hc] at h
        cases h
        exact .inl ⟨b, rfl, hr, hc, rfl⟩
      · have hc' : s.cnt.val = 23 := by have := s.cnt.isLt; omega
        rw [react, pushByte_complete b hr hc', retirePacket] at h
        split at h
        case h_1 p hp =>
          rw [applyPacket_eq] at h
          cases h
          exact .inr (.inl ⟨b, p, rfl, hr, hc', hp, rfl⟩)
        case h_2 => cases h
    · rw [react, pushByte_refused b hr] at h
      cases h
      exact .inr (.inr (.inr (.inr (.inr (.inr ⟨by simp, by simp, fun h => absurd h hr, observes_refuse s _⟩)))))
  | endOfStream =>
    by_cases hr : s.session = .run
    · by_cases hc : s.cnt.val = 0
      · rw [react, endOfStream_clean hr hc] at h
        cases h
        exact .inr (.inr (.inl ⟨rfl, hr, hc, rfl⟩))
      · rw [react, endOfStream_short hr hc] at h
        cases h
        exact .inr (.inr (.inr (.inl ⟨rfl, hr, hc, rfl⟩)))
    · rw [react, endOfStream_refused hr] at h
      cases h
      exact .inr (.inr (.inr (.inr (.inr (.inr ⟨by simp, by simp, fun h => absurd h hr, observes_refuse s _⟩)))))
  | clearDirty => cases h; exact .inr (.inr (.inr (.inr (.inl ⟨rfl, rfl⟩))))
  | reset => cases h; exact .inr (.inr (.inr (.inr (.inr (.inl ⟨rfl, rfl⟩)))))
  | readPixel x y =>
    cases h
    exact .inr (.inr (.inr (.inr (.inr (.inr ⟨by simp, by simp, by simp, observes_readPixel x y s⟩)))))
  | readPalette i =>
    cases h
    exact .inr (.inr (.inr (.inr (.inr (.inr ⟨by simp, by simp, by simp, observes_emit s (by simp)⟩)))))
  | readStatus =>
    cases h
    exact .inr (.inr (.inr (.inr (.inr (.inr ⟨by simp, by simp, by simp, observes_emit s (by simp)⟩)))))
  | resolve x y =>
    cases h
    exact .inr (.inr (.inr (.inr (.inr (.inr ⟨by simp, by simp, by simp, observes_resolve x y s⟩)))))
  | resolveFrame =>
    cases h
    exact .inr (.inr (.inr (.inr (.inr (.inr ⟨by simp, by simp, by simp, observes_emit s (by simp)⟩)))))

/-- A step that answers a next state is idle or takes an event. -/
theorem step_cases {s t : State} (h : step s = .next t) :
    (s.inbox = [] ∧ t = s) ∨ ∃ e rest, s.inbox = e :: rest ∧ react e (s.setInbox rest) = .next t := by
  cases hi : s.inbox with
  | nil =>
    rw [step_idle hi] at h
    cases h
    exact .inl ⟨rfl, rfl⟩
  | cons e rest =>
    rw [step_event hi] at h
    exact .inr ⟨e, rest, rfl, h⟩

/-! ### Runs -/

theorem runSteps_next {s t : State} (n : Nat) (h : step s = .next t) : runSteps (n + 1) s = runSteps n t := by
  rw [runSteps, h]

theorem run_of_next {M : Host.Core} {s t : M.State} (n : Nat) (h : M.step s = .next t) : M.run (n + 1) s = M.run n t := by
  simp only [Host.Core.run, h]

theorem run_of_fault {M : Host.Core} {s : M.State} {f : M.Fault} (n : Nat) (h : M.step s = .fault f) :
    M.run (n + 1) s = .fault f := by simp only [Host.Core.run, h]

theorem run_of_refused {M : Host.Core} {s : M.State} {r : M.Refusal} (n : Nat) (h : M.step s = .refused r) :
    M.run (n + 1) s = .refused r := by simp only [Host.Core.run, h]

theorem core_run_eq (n : Nat) (s : State) : Host.Core.run Sys2Proof.core n s = runSteps n s := by
  induction n generalizing s with
  | zero => rfl
  | succ n ih =>
    cases h : step s with
    | next t => exact (run_of_next (M := Sys2Proof.core) n h).trans ((ih t).trans (runSteps_next n h).symm)
    | fault f => exact (run_of_fault (M := Sys2Proof.core) n h).trans (by simp only [runSteps, h]; rfl)
    | refused r => exact (run_of_refused (M := Sys2Proof.core) n h).trans (by simp only [runSteps, h]; rfl)

/-! ### Packets, one after another -/

theorem applyPackets_cons (p : Packet) (ps : List Packet) (s : State) :
    applyPackets (p :: ps) s = applyPackets ps ((s.applied (decode p)).retire (outcomeOf (decode p))) := by
  rw [applyPackets, applyPacket_eq]

end Sys2Proof.Machine
end

