-- ==== Sys2Proof/Tests/Slice0.lean ====
section
/-! SUPPORT. The model's own tests. Expected values are those of 95_test_vectors.md (its vector is named) or worked out by
hand from the rule named. Theorems `test_hyp_*` show inputs that meet the hypotheses of a statement, clause by clause. -/

namespace Sys2Proof.Tests

open Sys2Proof.Machine

/-! ### Helpers -/

/-- The state a step or a meaning answers, if it answers one. -/
def after? : Host.Outcome State Fault Refusal → Option State
  | .next t => some t
  | .fault _ => none
  | .refused _ => none

/-- The packet of command byte `c`, instruction byte `i` and the payload bytes `pl`, parity zero. -/
def packet (c i : Byte) (pl : Vector Byte 16) : Packet :=
  { command := c, instruction := i, parityQ := #v[0, 0], payload := pl, parityP := #v[0, 0, 0, 0] }

/-- A payload of three bytes and zeros. -/
def short (a b c : Byte) : Vector Byte 16 := #v[a, b, c, 0, 0, 0, 0, 0, 0, 0, 0, 0, 0, 0, 0, 0]

/-- The state after reset with the given events pending. -/
def fed (es : List Event) : State := { State.reset with inbox := es }

/-- `n` zero bytes buffered, in `RUN`. -/
def buffered (n : Fin 24) (es : List Event) : State :=
  { fed es with buf := List.replicate n 0, cnt := n }

/-- The state after a clean end. -/
def ended (es : List Event) : State := { fed es with session := .done }

/-- The state after `ShortRead` with `n` bytes left over. -/
def failed (n : Fin 24) (es : List Event) : State := { buffered n es with session := .err }

/-- Pixel (0, 0) holds `v`. -/
def pixel0 (v : Pixel) (es : List Event) : State := { fed es with pix := [(0, v)] }

/-- A tile at a tile-grid position, mask all zero. -/
def plainTile (c0 c1 : Pixel) (row : BitVec 5) (column : BitVec 6) : TileBlock :=
  { color0 := c0, color1 := c1, row := row, column := column, mask := Vector.replicate 12 0 }

/-- The glyph of T48. -/
def glyph : TileMask := #v[0x3F, 0x21, 0x2D, 0x2D, 0x21, 0x3F, 0, 0, 0, 0, 0, 1]

/-- The first eight entries of T30. -/
def entries30 : ClutEntries := #v[0x000, 0xF00, 0x0F0, 0x00F, 0xFFF, 0x123, 0xABC, 0x5A5]

/-! ### Well-formedness: the one check (the code of `UNSUP` is none of the nine) -/

theorem test_wellFormed_refuses_recognised_codes :
    (Instr.unsup 1).wellFormed = false ∧ (Instr.unsup 2).wellFormed = false ∧ (Instr.unsup 6).wellFormed = false ∧
    (Instr.unsup 20).wellFormed = false ∧ (Instr.unsup 24).wellFormed = false ∧ (Instr.unsup 28).wellFormed = false ∧
    (Instr.unsup 30).wellFormed = false ∧ (Instr.unsup 31).wellFormed = false ∧
    (Instr.unsup 38).wellFormed = false := by decide

theorem test_wellFormed_accepts_other_codes :
    (Instr.unsup 0).wellFormed = true ∧ (Instr.unsup 39).wellFormed = true ∧ (Instr.unsup 63).wellFormed = true := by decide

/-! ### Decoding, one word or more per constructor -/

/-- T22: bits 7:6 of both opcode bytes set. -/
theorem test_decode_memPre :
    decodeBytes [0x49, 0x41, 0, 0, 0x03, 0, 0, 0, 0, 0, 0, 0, 0, 0, 0, 0, 0, 0, 0, 0, 0, 0, 0, 0] =
      .ok (.memPre 3 0, []) := by decide

/-- T40: parity and the unused payload bits are ignored. -/
theorem test_decode_memPre_ignores :
    decodeBytes [0x09, 0x01, 0xFF, 0xFF, 0xF3, 0xFA, 0xFF, 0xFF, 0xFF, 0xFF, 0xFF, 0xFF, 0xFF, 0xFF, 0xFF, 0xFF, 0xFF,
      0xFF, 0xFF, 0xFF, 0xFF, 0xFF, 0xFF, 0xFF] = .ok (.memPre 3 10, []) := by decide

/-- T41. -/
theorem test_decode_border :
    decodeBytes [0x09, 0x02, 0x12, 0x34, 0xFF, 0xFF, 0xFF, 0xFF, 0xFF, 0xFF, 0xFF, 0xFF, 0xFF, 0xFF, 0xFF, 0xFF, 0xFF,
      0xFF, 0xFF, 0xFF, 0x56, 0x78, 0x9A, 0xBC] = .ok (.border, []) := by decide

/-- T46: color0 7, color1 7, row 15, column 47, mask all zero. -/
theorem test_decode_tile :
    decodeBytes [0x09, 0x06, 0, 0, 0x47, 0xC7, 0x2F, 0x6F, 0xC0, 0xC0, 0xC0, 0xC0, 0xC0, 0xC0, 0xC0, 0xC0, 0xC0, 0xC0,
      0xC0, 0xC0, 0, 0, 0, 0] = .ok (.tile (plainTile 7 7 15 47), []) := by decide

/-- The fourth packet of P2. -/
theorem test_decode_tileX :
    decodeBytes [0x09, 0x26, 0, 0, 0x03, 0x03, 0x0F, 0x2F, 0x3F, 0x21, 0x2D, 0x2D, 0x21, 0x3F, 0, 0, 0, 0, 0, 0x01,
      0, 0, 0, 0] = .ok (.tileX { color0 := 3, color1 := 3, row := 15, column := 47, mask := glyph }, []) := by decide

/-- T60 and T62. -/
theorem test_decode_scrlP :
    decode (packet 0x09 20 (short 0x05 0x23 0x1B)) =
      .scrlP { color := 5, hCmd := 2, hOffset := 3, vCmd := 1, vOffset := 11 } ∧
    decode (packet 0x09 20 (short 0xFF 0xFF 0xFF)) =
      .scrlP { color := 15, hCmd := 3, hOffset := 7, vCmd := 3, vOffset := 15 } := by decide

/-- T63 and T65. -/
theorem test_decode_scrlC :
    decode (packet 0x09 24 (short 0x10 0x08 0x40)) =
      .scrlC { color := 0, hCmd := 0, hOffset := 0, vCmd := 0, vOffset := 0 } ∧
    decode (packet 0x09 24 (short 0x00 0xD5 0xAC)) =
      .scrlC { color := 0, hCmd := 1, hOffset := 5, vCmd := 2, vOffset := 12 } := by decide

/-- T66. -/
theorem test_decode_transp : decode (packet 0x09 28 (short 0x3F 0x3F 0)) = .transp := by decide

/-- T67. -/
theorem test_decode_clutLo :
    decodeBytes [0x09, 0x1E, 0, 0, 0x00, 0x00, 0x3C, 0x00, 0x03, 0x30, 0x00, 0x0F, 0x3F, 0x3F, 0x04, 0x23, 0x2A, 0x3C,
      0x16, 0x25, 0, 0, 0, 0] = .ok (.clutLo entries30, []) := by decide

/-- T68, with bits 7:6 of two payload bytes set (T30, row `C4 E3`). -/
theorem test_decode_clutHi :
    decodeBytes [0x09, 0x1F, 0, 0, 0x00, 0x00, 0x3C, 0x00, 0x03, 0x30, 0x00, 0x0F, 0x3F, 0x3F, 0xC4, 0xE3, 0x2A, 0x3C,
      0x16, 0x25, 0, 0, 0, 0] = .ok (.clutHi entries30, []) := by decide

/-- T33, T34, T36, T37. -/
theorem test_decode_unsup :
    decode (packet 0x09 0xC0 (short 3 0 0)) = .unsup 0 ∧ decode (packet 0x09 0x03 (short 3 0 0)) = .unsup 3 ∧
    decode (packet 0x09 0x27 (short 3 0 0)) = .unsup 39 ∧ decode (packet 0x09 0xFF (short 3 0 0)) = .unsup 63 := by decide

/-- T25 to T29. -/
theorem test_decode_notCmd :
    decode (packet 0x08 0x01 (short 3 0 0)) = .notCmd ∧ decode (packet 0x19 0x01 (short 3 0 0)) = .notCmd ∧
    decode (packet 0x29 0x01 (short 3 0 0)) = .notCmd ∧ decode (packet 0x00 0x01 (short 3 0 0)) = .notCmd ∧
    decode (packet 0xFF 0x01 (short 3 0 0)) = .notCmd := by decide

/-- 40_framer_dispatch.md R122: no partial packet is returned; a second packet's bytes are handed back. -/
theorem test_decode_lengths :
    decodeBytes (List.replicate 23 0x09) = .error (.shortPacket 23) ∧
    decodeBytes (List.replicate 24 0 ++ [0x09, 0x01]) = .ok (.notCmd, [0x09, 0x01]) := by decide

/-- The rejected reading `OVERLAP` of T30, written out for comparison: it collides and loses bits. -/
theorem test_repack_readings :
    repack .concat 0x3C 0x00 = 0xF00 ∧ repack .overlap 0x3C 0x00 = 0x3C0 ∧ repack .overlap 0x04 0x23 = 0x063 ∧
    repack .overlap 0x01 0x00 = 0x010 ∧ repack .overlap 0x00 0x10 = 0x010 := by decide

/-- T31: the end points and two values between. -/
theorem test_expansion : x17 0 = 0 ∧ x17 1 = 17 ∧ x17 10 = 170 ∧ x17 15 = 255 := by decide

/-- S1: the concrete packet of the round trip. -/
theorem test_framing_S1 :
    Packet.ofBytes [0xC9, 0xFF, 0xA5, 0x5A, 0x80, 0x81, 0x82, 0x83, 0x84, 0x85, 0x86, 0x87, 0x88, 0x89, 0x8A, 0x8B, 0x8C,
      0x8D, 0x8E, 0x8F, 0xDE, 0xAD, 0xBE, 0xEF] =
    some { command := 0xC9, instruction := 0xFF, parityQ := #v[0xA5, 0x5A],
           payload := #v[0x80, 0x81, 0x82, 0x83, 0x84, 0x85, 0x86, 0x87, 0x88, 0x89, 0x8A, 0x8B, 0x8C, 0x8D, 0x8E, 0x8F],
           parityP := #v[0xDE, 0xAD, 0xBE, 0xEF] } := by decide

/-- P1, second line: the encoder writes the bytes of the spec. -/
theorem test_encode_P1 :
    encode (.clutHi #v[0x111, 0x222, 0x333, 0x444, 0x888, 0xCCC, 0xEEE, 0x7F1]) =
      [0x09, 0x1F, 0, 0, 0x04, 0x11, 0x08, 0x22, 0x0C, 0x33, 0x11, 0x04, 0x22, 0x08, 0x33, 0x0C, 0x3B, 0x2E, 0x1F, 0x31,
        0, 0, 0, 0] := by decide

/-- P2, third packet: the encoder writes the bytes of the spec. -/
theorem test_encode_P2 :
    encode (.tile { color0 := 1, color1 := 2, row := 15, column := 47, mask := glyph }) =
      [0x09, 0x06, 0, 0, 0x01, 0x02, 0x0F, 0x2F, 0x3F, 0x21, 0x2D, 0x2D, 0x21, 0x3F, 0, 0, 0, 0, 0, 0x01, 0, 0, 0, 0] := by
  decide

/-- 30_encoding.md R101: `.eos` and `.bytes` are the events they name. -/
theorem test_assemble :
    assemble [.bytes [0x09, 0x01], .eos] = [.pushByte 0x09, .pushByte 0x01, .endOfStream] := by decide

/-! ### Effects -/

/-- S3: pixels 3, dirty. -/
theorem test_memPre_fills :
    (after? (exec (.memPre 3 0) .reset)).map (fun t => (t.pixelAt 0 0, t.pixelAt 1 0, t.dirty)) = some (3, 3, true) := by
  decide

/-- T43b: the fill with 0 is performed and sets `DIRTY`. -/
theorem test_memPre_zero :
    (after? (exec (.memPre 0 15) .reset)).map (fun t => (t.pix, t.dirty)) = some ([], true) := by decide

/-- S5, first packet: the corner cells of the block, and the cells just outside. -/
theorem test_tile_S5 :
    (after? (exec (.tile (plainTile 5 9 0 0)) .reset)).map
      (fun t => (t.pix.length, t.pixelAt 0 0, t.pixelAt 5 11, t.pixelAt 6 0, t.pixelAt 0 12, t.dirty)) =
    some (72, 5, 5, 0, 0, true) := by decide +kernel

/-- T48: the glyph in the last tile, left is bit 5. -/
theorem test_tile_T48 :
    (after? (exec (.tile { color0 := 1, color1 := 2, row := 15, column := 47, mask := glyph }) .reset)).map
      (fun t => ([282, 283, 284, 285, 286, 287].map (fun x => t.pixelAt x 182), t.pixelAt 286 191, t.pixelAt 287 191,
        (t.pix.filter (fun c => c.2 == 2)).length)) =
    some ([2, 1, 2, 2, 1, 2], 1, 2, 25) := by decide +kernel

/-- T49: the same tile exclusive-ored with 3 turns 1 into 2 and 2 into 1. -/
theorem test_tileX_T49 :
    ((after? (exec (.tile { color0 := 1, color1 := 2, row := 15, column := 47, mask := glyph }) .reset)).bind fun s =>
      after? (exec (.tileX { color0 := 3, color1 := 3, row := 15, column := 47, mask := glyph }) s)).map
      (fun t => ((t.pix.filter (fun c => c.2 == 2)).length, t.pixelAt 287 191, t.pixelAt 283 181)) =
    some (47, 1, 2) := by decide +kernel

/-- T53 and T54: the exclusive or is on all 6 bits, out of 0..15 and back. -/
theorem test_tileX_six_bits :
    (after? (exec (.tileX (plainTile 16 0 0 0)) (pixel0 15 []))).map (fun t => t.pixelAt 0 0) = some 31 ∧
    (after? (exec (.tileX (plainTile 32 0 0 0)) (pixel0 37 []))).map (fun t => t.pixelAt 0 0) = some 5 := by decide +kernel

/-- T44 and T45: column 48 and row 16 are the first outside. -/
theorem test_tile_outside :
    exec (.tile (plainTile 1 2 0 48)) .reset = .next .reset ∧ exec (.tileX (plainTile 1 2 16 0)) .reset = .next .reset := by
  constructor <;> rfl

/-- T67: eight entries in the low half. -/
theorem test_clutLo_T67 :
    (after? (exec (.clutLo entries30) .reset)).map (fun t => (t.pal[1], t.pal[5], t.pal[7], t.pal[8], t.dirty)) =
    some (⟨255, 0, 0⟩, ⟨17, 34, 51⟩, ⟨85, 170, 85⟩, ⟨0, 0, 0⟩, true) := by decide

/-- T68: the same in the high half. -/
theorem test_clutHi_T68 :
    (after? (exec (.clutHi entries30) .reset)).map (fun t => (t.pal[9], t.pal[13], t.pal[15], t.pal[7], t.dirty)) =
    some (⟨255, 0, 0⟩, ⟨17, 34, 51⟩, ⟨85, 170, 85⟩, ⟨0, 0, 0⟩, true) := by decide

/-- T41, T60, T61, T66, T37, T25: the six inert rows leave a state as it is. -/
theorem test_inert_rows :
    exec .border (pixel0 9 []) = .next (pixel0 9 []) ∧
    exec (.scrlP ⟨5, 2, 3, 1, 11⟩) (pixel0 9 []) = .next (pixel0 9 []) ∧
    exec (.scrlC ⟨0, 1, 0, 2, 0⟩) (pixel0 9 []) = .next (pixel0 9 []) ∧
    exec .transp (pixel0 9 []) = .next (pixel0 9 []) ∧ exec (.unsup 63) (pixel0 9 []) = .next (pixel0 9 []) ∧
    exec .notCmd (pixel0 9 []) = .next (pixel0 9 []) := ⟨rfl, rfl, rfl, rfl, rfl, rfl⟩

/-- The records of T60, T61 and T67 (10_state.md R34). -/
theorem test_records :
    outcomeOf (.scrlP ⟨5, 2, 3, 1, 11⟩) = .instruction (.scroll ⟨5, 2, 3, 1, 11⟩ false) ∧
    outcomeOf (.scrlC ⟨0, 1, 0, 2, 0⟩) = .instruction (.scroll ⟨0, 1, 0, 2, 0⟩ true) ∧
    outcomeOf (.clutLo entries30) = .instruction (.colorTableLoad 0
      #v[⟨0, 0, 0⟩, ⟨255, 0, 0⟩, ⟨0, 255, 0⟩, ⟨0, 0, 255⟩, ⟨255, 255, 255⟩, ⟨17, 34, 51⟩, ⟨170, 187, 204⟩,
        ⟨85, 170, 85⟩]) := by decide

/-! ### Events -/

/-- T11. -/
theorem test_pushByte_T11 :
    step (fed [.pushByte 0x09]) = .next { State.reset with buf := [0x09], cnt := 1 } := by rfl

/-- T12, the 24th zero byte. -/
theorem test_pushByte_T12 :
    step (buffered 23 [.pushByte 0]) = .next { State.reset with outbox := [.retired .notACommand] } := by rfl

/-- T10 and T13: the two ends of a session. -/
theorem test_endOfStream :
    step (fed [.endOfStream]) = .next { ended [] with outbox := [.cleanEnd] } ∧
    step (buffered 23 [.endOfStream]) = .next { failed 23 [] with outbox := [.raised (.shortRead 23)] } := by
  constructor <;> rfl

/-- T17 and T18: a stream event after the end is refused and changes nothing. -/
theorem test_stream_refused :
    step (failed 23 [.pushByte 0]) = .next { failed 23 [] with outbox := [.refused (.pushByte 0)] } ∧
    step (ended [.pushByte 9]) = .next { ended [] with outbox := [.refused (.pushByte 9)] } := by
  constructor <;> rfl

/-- T74 and T75: 16 and 37 have no palette entry, 15 has one. -/
theorem test_resolve :
    step (pixel0 37 [.resolve 0 0]) =
      .next { pixel0 37 [] with outbox := [.raised (.paletteIndexOutOfRange 0 0 37)] } ∧
    step (pixel0 16 [.resolve 0 0]) =
      .next { pixel0 16 [] with outbox := [.raised (.paletteIndexOutOfRange 0 0 16)] } ∧
    step (pixel0 15 [.resolve 0 0]) = .next { pixel0 15 [] with outbox := [.resolved ⟨0, 0, 0, 255⟩] } := by
  refine ⟨?_, ?_, ?_⟩ <;> rfl

/-- T71, T78: the grid's last coordinate and the first outside. -/
theorem test_readPixel :
    step (pixel0 7 [.readPixel 287 191]) = .next { pixel0 7 [] with outbox := [.pixel 0] } ∧
    step (pixel0 7 [.readPixel 0 0]) = .next { pixel0 7 [] with outbox := [.pixel 7] } ∧
    step (pixel0 7 [.readPixel 288 0]) = .next { pixel0 7 [] with outbox := [.refused (.readPixel 288 0)] } ∧
    step (pixel0 7 [.resolve 0 192]) = .next { pixel0 7 [] with outbox := [.refused (.resolve 0 192)] } := by
  refine ⟨?_, ?_, ?_, ?_⟩ <;> rfl

/-- T20, T73: the status, inside a packet, and the dirty flag cleared by the host alone. -/
theorem test_status :
    step (buffered 12 [.readStatus]) = .next { buffered 12 [] with outbox := [.status false .run 12] } ∧
    step { fed [.clearDirty] with dirty := true } = .next State.reset := by
  constructor <;> rfl

/-- T80 to T82: `Reset` from a run, from inside a packet and from `ERR`. -/
theorem test_reset :
    step { pixel0 3 [.reset] with dirty := true, session := .done } = .next State.reset ∧
    step (buffered 7 [.reset]) = .next State.reset ∧ step (failed 10 [.reset]) = .next State.reset := by
  refine ⟨?_, ?_, ?_⟩ <;> rfl

/-- The table word of `MEMPRE` (match 0x0901) decodes and runs as the first instruction after reset. -/
theorem test_fetch_memPre :
    decodeTableWord 16 0x0901 = some (.memPre 0 0) ∧
    (after? (step (State.reset.withFetchWord 16 0x0901))).map (fun t => (t.dirty, t.outbox)) =
      some (true, [.retired (.instruction (.memoryPreset 0 0))]) := by decide

/-- The table word of `TILEX` (match 0x0926). -/
theorem test_fetch_tileX : decodeTableWord 16 0x0926 = some (.tileX (plainTile 0 0 0 0)) := by decide

/-! ### Inputs that meet the hypotheses of the statements -/

theorem test_hyp_DecodeOfEncodeIsIdentity :
    (Instr.memPre 15 15).wellFormed = true ∧ (Instr.tile (plainTile 63 63 31 63)).wellFormed = true ∧
    (Instr.unsup 63).wellFormed = true := by decide

theorem test_hyp_OnlyShortInputIsRejected :
    24 ≤ (List.replicate 24 (0 : Byte)).length ∧ (List.replicate 23 (0 : Byte)).length < 24 := by decide

theorem test_hyp_PresetFormatFields : (packet 0x49 0x41 (short 0xFF 0xFF 0)).opw &&& 0x3F3F = 0x0901 := by decide

theorem test_hyp_MemPreFillsEveryPixel : (packet 0x09 0x81 (short 0x13 0xF5 9)).opw &&& 0x3F3F = 0x0901 := by decide

theorem test_hyp_NibbleExpansionIsTimesSeventeen : State.reset.resolve? 287 191 = some (.color ⟨0, 0, 0, 255⟩) := by rfl

theorem test_hyp_TileFormatFields :
    (packet 0x09 0x06 (short 0xFF 0xFF 0xFF)).opw &&& 0x3F3F = 0x0906 ∧
    (packet 0xC9 0xE6 (short 0xFF 0xFF 0xFF)).opw &&& 0x3F3F = 0x0926 := by decide

theorem test_hyp_ColorTableFormatEntries :
    Config.clutRepack = .concat ∧ (packet 0x09 0x1E (short 0xFF 0xFF 0xFF)).opw &&& 0x3F3F = 0x091E ∧
    (packet 0x89 0x5F (short 0xFF 0xFF 0xFF)).opw &&& 0x3F3F = 0x091F := by decide

/-- One pair of packets for each clause, differing in the bits the clause ignores. -/
theorem test_hyp_IgnoredBitsHaveNoEffect :
    ((packet 0x08 1 (short 1 0 0)).command.toNat % 64 ≠ 9 ∧ (packet 0xFF 2 (short 2 0 0)).command.toNat % 64 ≠ 9) ∧
    (SameOpcode (packet 0x09 6 (short 1 0 0)) (packet 0xC9 0xC6 (short 0xC1 0 0)) ∧
      ∀ i : Fin 16, (short 1 0 0)[i].toNat % 64 = (short 0xC1 0 0)[i].toNat % 64) ∧
    (SameOpcode (packet 0x09 2 (short 1 0 0)) (packet 0x09 2 (short 2 0 0)) ∧ 2 ∉ [1, 6, 20, 24, 30, 31, 38]) ∧
    (SameOpcode (packet 0x09 1 (short 0x0F 0 0)) (packet 0x09 1 (short 0xFF 0xF0 1)) ∧
      (0x0F : Byte).toNat % 16 = (0xFF : Byte).toNat % 16 ∧ (0 : Byte).toNat % 16 = (0xF0 : Byte).toNat % 16) ∧
    (SameOpcode (packet 0x09 24 (short 0x1F 0x27 0x3F)) (packet 0x09 24 (short 0x0F 0xEF 0xFF)) ∧
      (0x1F : Byte).toNat % 16 = (0x0F : Byte).toNat % 16 ∧ (0x27 : Byte).toNat % 8 = (0xEF : Byte).toNat % 8 ∧
      (0x27 : Byte).toNat % 64 / 16 = (0xEF : Byte).toNat % 64 / 16 ∧
      (0x3F : Byte).toNat % 64 = (0xFF : Byte).toNat % 64) ∧
    (SameOpcode (packet 0x09 38 (short 1 2 0x1F)) (packet 0x09 38 (short 1 2 0xFF)) ∧
      (0x1F : Byte).toNat % 32 = (0xFF : Byte).toNat % 32 ∧
      ∀ i : Fin 16, i.val ≠ 2 → (short 1 2 0x1F)[i].toNat % 64 = (short 1 2 0xFF)[i].toNat % 64) := by
  simp only [SameOpcode]
  decide

theorem test_hyp_FramingRoundTrips : (List.replicate 24 (0xC9 : Byte)).length = 24 := by decide

/-- The premise on the pixel RAM of `MemPreIsTheCellLoop`, `TileOverwritesItsCells`, `TileXorsItsCells`,
`XorCompositionLaws` and `TileThenXorBlanksTheTile`: blank, and one cell at either end of the RAM. -/
theorem test_hyp_pixels_canonical :
    State.reset.pix.wf = true ∧ (pixel0 63 []).pix.wf = true ∧ Memory.wf [(0, 1), (55295, 63)] = true := by decide

/-- A canonical list names no cell outside the RAM, none twice, and no blank one. -/
theorem test_pixels_not_canonical :
    Memory.wf [(55296, 1)] = false ∧ Memory.wf [(3, 1), (3, 2)] = false ∧ Memory.wf [(0, 0)] = false := by decide

/-- Grid coordinates inside and outside a tile, at the corner of the grid: `MemPreMakesEveryPixelResolvable`,
`TileOverwritesItsCells`, `TileXorsItsCells`, `TileThenXorBlanksTheTile`. -/
theorem test_hyp_tile_coordinates :
    InTile (plainTile 1 2 15 47) 287 191 ∧ InTile (plainTile 1 2 15 47) 282 180 ∧ ¬ InTile (plainTile 1 2 15 47) 281 180 ∧
    ¬ InTile (plainTile 1 2 15 47) 282 179 ∧ 287 < 288 ∧ 191 < 192 := by
  simp only [InTile]
  decide

theorem test_hyp_TileOutsideTheGridChangesNothing :
    48 ≤ (plainTile 1 2 0 48).column.toNat ∧ 16 ≤ (plainTile 1 2 16 0).row.toNat := by decide

theorem test_hyp_TileIsWhollyInsideOrOutside :
    insideGrid (plainTile 1 2 15 47) = true ∧ insideGrid (plainTile 1 2 0 48) = false ∧
    insideGrid (plainTile 1 2 16 0) = false := by decide

theorem test_hyp_XorCompositionLaws :
    (plainTile 1 2 3 4).row = (plainTile 5 6 3 4).row ∧ (plainTile 1 2 3 4).column = (plainTile 5 6 3 4).column ∧
    (plainTile 1 2 3 4).mask = (plainTile 5 6 3 4).mask := by decide

theorem test_hyp_TileThenXorBlanksTheTile :
    ∀ x y, x < 288 → y < 192 → InTile (plainTile 1 2 0 0) x y → State.reset.pix.read (y * 288 + x) = 0 :=
  fun _ _ _ _ _ => rfl

theorem test_hyp_BorderAndTransparentAreInert :
    (packet 0x49 0x82 (short 1 2 3)).opw &&& 0x3F3F = 0x0902 ∧ (packet 0x09 0x1C (short 1 2 3)).opw &&& 0x3F3F = 0x091C ∧
    (pixel0 15 []).resolve? 0 0 = some (.color ⟨0, 0, 0, 255⟩) := by
  refine ⟨by decide, by decide, rfl⟩

theorem test_hyp_ScrollIsDecodedAndInert :
    (packet 0x09 0x14 (short 0xFF 0xFF 0xFF)).opw &&& 0x3F3F = 0x0914 ∧
    (packet 0x09 0xD8 (short 0xFF 0xFF 0xFF)).opw &&& 0x3F3F = 0x0918 := by decide

theorem test_hyp_PaletteLoadCannotResolveHighIndex :
    16 ≤ ((pixel0 16 []).pix.read (0 * 288 + 0)).toNat ∧ 16 ≤ ((pixel0 63 []).pix.read (0 * 288 + 0)).toNat := by decide

theorem test_hyp_UnsupportedCodesChangeNothing :
    (packet 0x09 0xFF (short 1 2 3)).command &&& 0x3F = 0x09 ∧
    (packet 0x09 0xFF (short 1 2 3)).instruction.toNat % 64 ∉ [1, 2, 6, 20, 24, 28, 30, 31, 38] := by decide

theorem test_hyp_NonCommandPacketsChangeNothing : (packet 0x08 0x01 (short 3 0 0)).command &&& 0x3F ≠ 0x09 := by decide

theorem test_hyp_InstructionsChangeOnlyTheirRam :
    exec .border State.reset = .next State.reset ∧ (∀ c r, Instr.border ≠ .memPre c r) ∧ (∀ b, Instr.border ≠ .tile b) ∧
    (∀ b, Instr.border ≠ .tileX b) ∧ (∀ es, Instr.border ≠ .clutLo es) ∧ ∀ es, Instr.border ≠ .clutHi es := by
  refine ⟨rfl, ?_, ?_, ?_, ?_, ?_⟩ <;> intros <;> intro h <;> cases h

/-- Two states that differ in everything but the pixel RAM, or but the palette. -/
theorem test_hyp_EachRamEvolvesOnItsOwn :
    (pixel0 5 []).pix = (State.withFetchWord { pixel0 5 [] with dirty := true } 16 0x0901).pix ∧
    (pixel0 5 []).pal = (buffered 7 []).pal := ⟨rfl, rfl⟩

theorem test_hyp_PushByteIsStoredAndCounted :
    ((fed [.pushByte 1]).session = .run ∧ (fed [.pushByte 1]).cnt.val ≤ 22 ∧
      (fed [.pushByte 1]).buf.length = (fed [.pushByte 1]).cnt.val) ∧
    ((buffered 22 [.pushByte 1]).session = .run ∧ (buffered 22 [.pushByte 1]).cnt.val ≤ 22 ∧
      (buffered 22 [.pushByte 1]).buf.length = (buffered 22 [.pushByte 1]).cnt.val) := by decide

theorem test_hyp_StepRunsTheDecodedInstruction :
    (buffered 23 [.pushByte 1]).session = .run ∧ (buffered 23 [.pushByte 1]).cnt.val = 23 ∧
    (buffered 23 [.pushByte 1]).buf.length = 23 ∧ (buffered 23 [.pushByte 1]).inbox = [.pushByte 1] := by decide

theorem test_hyp_FetchWordRunsTheTableInstruction : decodeTableWord 16 0x0902 = some .border := by decide

theorem test_hyp_EndOfStreamEndsTheSession :
    ((fed [.endOfStream]).session = .run ∧ (fed [.endOfStream]).cnt.val = 0) ∧
    ((buffered 1 [.endOfStream]).session = .run ∧ (buffered 1 [.endOfStream]).cnt.val ≠ 0) ∧
    ((buffered 23 [.endOfStream]).session = .run ∧ (buffered 23 [.endOfStream]).cnt.val ≠ 0) := by decide

theorem test_hyp_StreamEventsOutsideRunAreRefused :
    ((ended [.pushByte 1]).session ≠ .run ∧ (ended [.pushByte 1]).inbox = [.pushByte 1]) ∧
    ((failed 1 [.endOfStream]).session ≠ .run ∧ (failed 1 [.endOfStream]).inbox = [.endOfStream]) := by decide

theorem test_hyp_NoEventNoChange : (failed 3 []).inbox = [] := by decide

theorem test_hyp_TwentyFourBytesAreOnePacket :
    (fed (nopPacket.toBytes.map .pushByte ++ [.endOfStream])).session = .run ∧
    (fed (nopPacket.toBytes.map .pushByte ++ [.endOfStream])).cnt.val = 0 ∧
    (fed (nopPacket.toBytes.map .pushByte ++ [.endOfStream])).inbox = nopPacket.toBytes.map Event.pushByte ++ [.endOfStream] :=
  ⟨rfl, rfl, rfl⟩

/-- A stream of one packet and one byte more (T15), and the empty stream (T10), with the two ends of `frame`. -/
theorem test_hyp_EventMachineComputesFrame :
    (frame (encode (.memPre 3 0) ++ [0])).2 = .shortRead 1 ∧ (frame (encode (.memPre 3 0) ++ [0])).1 = [encode (.memPre 3 0)] ∧
    (frame []).2 = .cleanEnd ∧
    (fed ((encode (.memPre 3 0) ++ [0]).map .pushByte ++ [.endOfStream])).session = .run ∧
    (fed ((encode (.memPre 3 0) ++ [0]).map .pushByte ++ [.endOfStream])).cnt.val = 0 := by decide

theorem test_hyp_ReadsReturnTheStateUnchanged :
    (fed [.readPixel 287 191]).inbox = [.readPixel 287 191] ∧ 287 < 288 ∧ 191 < 192 ∧
    (fed [.readPixel 288 191]).inbox = [.readPixel 288 191] ∧ (fed [.readPixel 287 192]).inbox = [.readPixel 287 192] ∧
    (fed [.readPalette 15]).inbox = [.readPalette 15] ∧ (fed [.readStatus]).inbox = [.readStatus] := by decide

theorem test_hyp_ClearDirtyClearsOnlyDirty : (failed 3 [.clearDirty]).inbox = [.clearDirty] := by decide

theorem test_hyp_ResolveGivesColorOrError :
    ((pixel0 15 [.resolve 0 0]).inbox = [.resolve 0 0] ∧
      ((pixel0 15 [.resolve 0 0]).pix.read (0 * 288 + 0)).toNat ≤ 15) ∧
    ((pixel0 16 [.resolve 0 0]).inbox = [.resolve 0 0] ∧
      16 ≤ ((pixel0 16 [.resolve 0 0]).pix.read (0 * 288 + 0)).toNat) ∧
    (pixel0 16 [.resolve 288 0]).inbox = [.resolve 288 0] ∧ (pixel0 16 [.resolve 0 192]).inbox = [.resolve 0 192] := by decide

theorem test_hyp_ResolveFrameIsTheGridOfLookups : (pixel0 37 [.resolveFrame]).inbox = [.resolveFrame] := by decide

theorem test_hyp_ResetRestoresEveryElement : (failed 3 [.reset, .readStatus]).inbox = [.reset, .readStatus] := by decide

theorem test_hyp_PowerOnNeedsReset : Event.reset = .reset ∧ Event.pushByte 9 ≠ .reset := by decide

/-- States with the invariant in each session, at the boundary values of `CNT`, with a step that answers a next state. -/
theorem test_hyp_EveryStepKeepsTheInvariant :
    State.reset.Inv ∧ (buffered 23 [.endOfStream]).Inv ∧ (failed 1 [.reset]).Inv ∧ (ended [.pushByte 1]).Inv ∧
    step (buffered 23 [.endOfStream]) = .next { failed 23 [] with outbox := [.raised (.shortRead 23)] } :=
  ⟨⟨⟨rfl, by decide, by decide⟩, rfl, by decide⟩, ⟨⟨rfl, by decide, by decide⟩, rfl, by decide⟩,
    ⟨⟨rfl, by decide, by decide⟩, rfl, by decide⟩, ⟨⟨rfl, by decide, by decide⟩, rfl, by decide⟩, rfl⟩

theorem test_hyp_EveryEventCompletes : (buffered 23 [.pushByte 1]).FramerInv ∧ (failed 1 [.pushByte 1]).FramerInv :=
  ⟨⟨rfl, by decide, by decide⟩, ⟨rfl, by decide, by decide⟩⟩

/-- A step for each transition of the session (`SessionTransitionsAreTheOnlyOnes`). -/
theorem test_hyp_SessionTransitionsAreTheOnlyOnes :
    (after? (step (fed [.endOfStream]))).map State.session = some .done ∧
    (after? (step (buffered 1 [.endOfStream]))).map State.session = some .err ∧
    (after? (step (failed 1 [.reset]))).map State.session = some .run ∧
    (after? (step (fed [.pushByte 1]))).map State.session = some .run := by decide

/-- A step that keeps the screen and steps that change it (`ScreenChangesOnlyAtRetireOrReset`, `OneRetireRecordPerPacket`). -/
theorem test_hyp_ScreenChangesOnlyAtRetireOrReset :
    (after? (step (pixel0 9 [.pushByte 1]))).map State.pix = some [(0, 9)] ∧
    (after? (step (pixel0 9 [.reset]))).map State.pix = some [] ∧
    (after? (step ((pixel0 9 []).withFetchWord 16 0x0901))).map State.pix = some [] := by decide

theorem test_hyp_DirtyFallsOnlyByTheHost :
    (after? (step { fed [.clearDirty] with dirty := true })).map State.dirty = some false ∧
    (after? (step { fed [.reset] with dirty := true })).map State.dirty = some false := by decide

theorem test_hyp_DirtyDecidesNothing :
    step { fed [.readStatus] with dirty := true } = .next { fed [] with dirty := true, outbox := [.status true .run 0] } ∧
    step (fed [.pushByte 1]) = .next { State.reset with buf := [1], cnt := 1 } := by
  constructor <;> rfl

theorem test_hyp_OneRetireRecordPerPacket :
    (after? (step (buffered 23 [.pushByte 0]))).map State.outbox = some [.retired .notACommand] ∧
    (after? (step (buffered 22 [.pushByte 0]))).map State.outbox = some [] := by decide

end Sys2Proof.Tests
end

section
namespace Sys2Proof.Proofs.Scope

/-- Settles O37 with the law of the idle step, the empty-inbox case of `step` (00_scope.md R12 (b), 60_exceptions.md R231). -/
theorem noEventNoChange : Obligations.NoEventNoChange := by
  intro s hidle
  exact Machine.step_idle hidle

end Sys2Proof.Proofs.Scope
end

section
namespace Sys2Proof.Proofs.StateRules
open Sys2Proof.Machine

/-! ### The invariant -/

/-- In `RUN` the framer invariant is the buffer's count alone (10_state.md R30). -/
theorem framerInv_of_run {s : State} (hrun : s.session = .run) (hheld : s.buf.length = s.cnt.val) : s.FramerInv :=
  ⟨hheld, fun hdone => by simp [hrun] at hdone, fun herr => by simp [hrun] at herr⟩

/-- The framer invariant reads `BUF`, `CNT` and `SESSION` only. -/
theorem framerInv_congr {s t : State} (hf : s.FramerInv) (hbuf : t.buf = s.buf) (hcnt : t.cnt = s.cnt)
    (hsession : t.session = s.session) : t.FramerInv :=
  ⟨by rw [hbuf, hcnt, hf.held], fun h => by rw [hcnt, hf.done (hsession ▸ h)],
    fun h => by rw [hcnt]; exact hf.err (hsession ▸ h)⟩

/-- An event that leaves the screen as it is has only the framer invariant to keep. -/
theorem inv_of_same_screen {s t : State} (hi : s.Inv) (hf : t.FramerInv) (hpix : t.pix = s.pix) (hpal : t.pal = s.pal) :
    t.Inv := ⟨hf, hpix ▸ hi.pixels, hpal ▸ hi.palette⟩

theorem reset_pal_get (i : Fin 16) : State.reset.pal[i] = black := by simp [State.reset]

/-- Settles O47: nothing is buffered in `RUN`, no cell is listed, and black is an expanded colour. -/
theorem invariantHoldsAtReset : Obligations.InvariantHoldsAtReset := by
  have hblack : black.expanded = true := by decide
  exact ⟨framerInv_of_run rfl rfl, rfl, fun i => by rw [reset_pal_get]; exact hblack⟩

/-- The byte that is stored is counted (40_framer_dispatch.md R120). -/
theorem inv_storeByte {s : State} (b : Byte) (hi : s.Inv) (hrun : s.session = .run) (hc : s.cnt.val + 1 < 24) :
    ((s.storeByte b).setCnt ⟨s.cnt.val + 1, hc⟩).Inv := by
  have hheld : (s.buf.take s.cnt ++ [b]).length = s.cnt.val + 1 := by simp [hi.framer.held]
  exact inv_of_same_screen hi (framerInv_of_run hrun hheld) rfl rfl

/-- A retired packet leaves a packet boundary, and its instruction keeps the screen's rules (10_state.md R29). -/
theorem inv_retirePacket {s : State} (b : Byte) (p : Packet) (hi : s.Inv) (hrun : s.session = .run) :
    (((s.storeByte b).applied (decode p)).retire (outcomeOf (decode p))).Inv :=
  ⟨framerInv_of_run hrun rfl, pixAfter_wf _ hi.pixels, palAfter_expanded _ hi.palette⟩

/-- Every event keeps the invariant. -/
theorem react_keeps_inv {e : Event} {s t : State} (hi : s.Inv) (h : react e s = .next t) : t.Inv := by
  rcases react_cases h with ⟨b, -, hrun, hc, rfl⟩ | ⟨b, p, -, hrun, -, -, rfl⟩ | ⟨-, -, hc, rfl⟩ | ⟨-, -, hc, rfl⟩ |
    ⟨-, rfl⟩ | ⟨-, rfl⟩ | ⟨-, -, -, os, rfl, -, -⟩
  · exact inv_storeByte b hi hrun hc
  · exact inv_retirePacket b p hi hrun
  · exact inv_of_same_screen hi ⟨hi.framer.held, fun _ => hc, nofun⟩ rfl rfl
  · exact inv_of_same_screen hi ⟨hi.framer.held, nofun, fun _ => Nat.pos_of_ne_zero hc⟩ rfl rfl
  · exact inv_of_same_screen hi (framerInv_congr hi.framer rfl rfl rfl) rfl rfl
  · exact inv_of_same_screen invariantHoldsAtReset (framerInv_of_run rfl rfl) rfl rfl
  · exact inv_of_same_screen hi (framerInv_congr hi.framer rfl rfl rfl) rfl rfl

/-- Settles O48: an idle step changes nothing, and taking an event from the inbox touches nothing the invariant reads. -/
theorem everyStepKeepsTheInvariant : Obligations.EveryStepKeepsTheInvariant := by
  intro s t hi h
  rcases step_cases h with ⟨-, rfl⟩ | ⟨e, rest, -, hreact⟩
  · exact hi
  · have htaken : (s.setInbox rest).Inv := inv_of_same_screen hi (framerInv_congr hi.framer rfl rfl rfl) rfl rfl
    exact react_keeps_inv htaken hreact

/-! ### The session -/

/-- Only `EndOfStream` in `RUN` and `Reset` write `SESSION` (10_state.md R24). -/
theorem react_session {e : Event} {s t : State} (h : react e s = .next t) :
    t.session = s.session ∨
    (s.session = .run ∧ e = .endOfStream ∧ s.cnt.val = 0 ∧ t.session = .done) ∨
    (s.session = .run ∧ e = .endOfStream ∧ s.cnt.val ≠ 0 ∧ t.session = .err) ∨
    (e = .reset ∧ t.session = .run) := by
  rcases react_cases h with ⟨b, -, -, -, rfl⟩ | ⟨b, p, -, -, -, -, rfl⟩ | ⟨he, hrun, hc, rfl⟩ | ⟨he, hrun, hc, rfl⟩ |
    ⟨-, rfl⟩ | ⟨he, rfl⟩ | ⟨-, -, -, os, rfl, -, -⟩
  · exact .inl rfl
  · exact .inl rfl
  · exact .inr (.inl ⟨hrun, he, hc, rfl⟩)
  · exact .inr (.inr (.inl ⟨hrun, he, hc, rfl⟩))
  · exact .inl rfl
  · exact .inr (.inr (.inr ⟨he, rfl⟩))
  · exact .inl rfl

/-- Settles O50 with the transitions of the event that the step takes. -/
theorem sessionTransitionsAreTheOnlyOnes : Obligations.SessionTransitionsAreTheOnlyOnes := by
  intro s t h
  rcases step_cases h with ⟨-, rfl⟩ | ⟨e, rest, hinbox, hreact⟩
  · exact .inl rfl
  · simpa [hinbox] using react_session hreact

/-! ### `DIRTY` -/

/-- Settles O29 with the law of `exec`, whose `DIRTY` is that of the instruction's writes. -/
theorem dirtyIsSetExactlyByWriters : Obligations.DirtyIsSetExactlyByWriters :=
  fun i s => ⟨s.applied i, exec_eq i s, applied_dirty i s⟩

/-- Every event but the two that clear `DIRTY` leaves it set. -/
theorem react_keeps_dirty {e : Event} {s t : State} (h : react e s = .next t) (hd : s.dirty = true)
    (hclear : e ≠ .clearDirty) (hreset : e ≠ .reset) : t.dirty = true := by
  rcases react_cases h with ⟨b, -, -, -, rfl⟩ | ⟨b, p, -, -, -, -, rfl⟩ | ⟨-, -, -, rfl⟩ | ⟨-, -, -, rfl⟩ |
    ⟨he, -⟩ | ⟨he, -⟩ | ⟨-, -, -, os, rfl, -, -⟩
  · exact hd
  · simp [hd]
  · exact hd
  · exact hd
  · exact absurd he hclear
  · exact absurd he hreset
  · exact hd

/-- Settles O52: any other event, and the idle step, would have left `DIRTY` set. -/
theorem dirtyFallsOnlyByTheHost : Obligations.DirtyFallsOnlyByTheHost := by
  intro s t h hd hfell
  rcases step_cases h with ⟨-, rfl⟩ | ⟨e, rest, hinbox, hreact⟩
  · simp [hd] at hfell
  · by_contra hother
    have hne : e ≠ .clearDirty ∧ e ≠ .reset := by simpa [hinbox] using hother
    have hkept := react_keeps_dirty hreact hd hne.1 hne.2
    simp [hkept] at hfell

/-- The state with another `DIRTY`: the two runs of `DirtyDecidesNothing` start from `s` and `withDirty d s`. -/
def withDirty (d : Bool) (s : State) : State := { s with dirty := d }

/-- A byte is refused, stored or completes a packet whatever `DIRTY` is, and the packet's writes do not read it. -/
theorem pushByte_withDirty {b : Byte} {s t : State} (h : pushByte b s = .next t) (d : Bool) :
    ∃ d', pushByte b (withDirty d s) = .next (withDirty d' t) := by
  by_cases hrun : s.session = .run
  · by_cases hc : s.cnt.val + 1 < 24
    · rw [pushByte_store b hrun hc] at h
      cases h
      exact ⟨d, pushByte_store (s := withDirty d s) b hrun hc⟩
    · have hlast : s.cnt.val = 23 := by omega
      rw [pushByte_complete b hrun hlast, retirePacket] at h
      split at h
      next p hp =>
        rw [applyPacket_eq] at h
        cases h
        have hp' : Packet.ofBytes ((withDirty d s).storeByte b).buf = some p := hp
        refine ⟨d || performsWrite (decode p), ?_⟩
        rw [pushByte_complete (s := withDirty d s) b hrun hlast, retirePacket_eq hp', applyPacket_eq]
        rfl
      next => cases h
  · rw [pushByte_refused b hrun] at h
    cases h
    exact ⟨d, pushByte_refused (s := withDirty d s) b hrun⟩

theorem endOfStream_withDirty {s t : State} (h : endOfStream s = .next t) (d : Bool) :
    endOfStream (withDirty d s) = .next (withDirty d t) := by
  by_cases hrun : s.session = .run
  · by_cases hc : s.cnt.val = 0
    · rw [endOfStream_clean hrun hc] at h
      cases h
      exact endOfStream_clean hrun hc
    · rw [endOfStream_short hrun hc] at h
      cases h
      exact endOfStream_short hrun hc
  · rw [endOfStream_refused hrun] at h
    cases h
    exact endOfStream_refused hrun

theorem hostReadPixel_withDirty (x y : Nat) (s : State) (d : Bool) :
    hostReadPixel x y (withDirty d s) = withDirty d (hostReadPixel x y s) := by
  by_cases h : x < 288 ∧ y < 192
  · rw [hostReadPixel_inside _ h.1 h.2, hostReadPixel_inside _ h.1 h.2]
    rfl
  · rw [hostReadPixel_outside _ (by omega), hostReadPixel_outside _ (by omega)]
    rfl

theorem hostResolve_withDirty (x y : Nat) (s : State) (d : Bool) :
    hostResolve x y (withDirty d s) = withDirty d (hostResolve x y s) := by
  have hlookup : (withDirty d s).resolve? x y = s.resolve? x y := rfl
  rw [hostResolve, hostResolve, hlookup]
  rcases s.resolve? x y with _ | _ | _ <;> rfl

/-- Every event but `ReadStatus` goes on alike whatever `DIRTY` is, but for `DIRTY` itself (10_state.md R27). -/
theorem react_withDirty {e : Event} {s t : State} (he : e ≠ .readStatus) (h : react e s = .next t) (d : Bool) :
    ∃ d', react e (withDirty d s) = .next (withDirty d' t) := by
  cases e with
  | pushByte b => exact pushByte_withDirty h d
  | endOfStream => exact ⟨d, endOfStream_withDirty h d⟩
  | readStatus => exact absurd rfl he
  | readPixel x y => cases h; exact ⟨d, congrArg _ (hostReadPixel_withDirty x y s d)⟩
  | resolve x y => cases h; exact ⟨d, congrArg _ (hostResolve_withDirty x y s d)⟩
  | readPalette | resolveFrame => cases h; exact ⟨d, rfl⟩
  | clearDirty | reset => cases h; exact ⟨false, rfl⟩

/-- Settles O53: `ReadStatus` emits `DIRTY` and changes nothing, every other event goes on alike. -/
theorem dirtyDecidesNothing : Obligations.DirtyDecidesNothing := by
  intro s t d h
  rcases step_cases h with ⟨hidle, rfl⟩ | ⟨e, rest, hinbox, hreact⟩
  · exact ⟨withDirty d t, step_idle hidle, rfl, rfl, rfl, rfl, rfl, rfl, fun _ => rfl⟩
  · have hstep : step (withDirty d s) = react e (withDirty d (s.setInbox rest)) := step_event hinbox
    by_cases he : e = .readStatus
    · subst he
      cases hreact
      exact ⟨_, hstep, rfl, rfl, rfl, rfl, rfl, rfl, fun hne => absurd (by rw [hinbox]; rfl) hne⟩
    · obtain ⟨d', hd'⟩ := react_withDirty he hreact d
      exact ⟨withDirty d' t, hstep.trans hd', rfl, rfl, rfl, rfl, rfl, rfl, fun _ => rfl⟩

/-! ### The outputs -/

/-- The event is the byte that completes a packet in `RUN` (40_framer_dispatch.md R121). -/
def CompletesPacket (e : Event) (s : State) : Prop := s.session = .run ∧ s.cnt.val = 23 ∧ ∃ b, e = .pushByte b

/-- What an event emits (10_state.md R36). -/
theorem react_outputs {e : Event} {s t : State} (h : react e s = .next t) :
    ∃ os : List Output, t.outbox = s.outbox ++ os ∧ os.length ≤ 1 ∧
      ((∃ o, .retired o ∈ os) ↔ CompletesPacket e s) := by
  rcases react_cases h with ⟨b, -, -, hc, rfl⟩ | ⟨b, p, he, hrun, hc, -, rfl⟩ | ⟨rfl, -, -, rfl⟩ | ⟨rfl, -, -, rfl⟩ |
    ⟨rfl, rfl⟩ | ⟨rfl, rfl⟩ | ⟨-, -, hstream, os, rfl, hlen, hnone⟩
  · have hnot : ¬ CompletesPacket e s := fun ⟨_, hlast, _⟩ => by omega
    exact ⟨[], by simp, by simp, by simp [hnot]⟩
  · have hdone : CompletesPacket e s := ⟨hrun, hc, b, he⟩
    exact ⟨[.retired (outcomeOf (decode p))], rfl, by simp, by simp [hdone]⟩
  · exact ⟨[.cleanEnd], rfl, by simp, by simp [CompletesPacket]⟩
  · exact ⟨[.raised (.shortRead s.cnt.val)], rfl, by simp, by simp [CompletesPacket]⟩
  · exact ⟨[], by simp, by simp, by simp [CompletesPacket]⟩
  · exact ⟨[], by simp, by simp, by simp [CompletesPacket]⟩
  · have hnot : ¬ CompletesPacket e s := fun ⟨hrun, _, b, he⟩ => (hstream hrun).1 b he
    exact ⟨os, rfl, hlen, iff_of_false (fun ⟨o, ho⟩ => hnone o ho) hnot⟩

/-- Settles O54 with the outputs of the event that the step takes; the idle step emits nothing. -/
theorem oneRetireRecordPerPacket : Obligations.OneRetireRecordPerPacket := by
  intro s t h
  rcases step_cases h with ⟨hidle, rfl⟩ | ⟨e, rest, hinbox, hreact⟩
  · exact ⟨[], by simp, by simp, by simp [hidle]⟩
  · simpa [hinbox, CompletesPacket] using react_outputs hreact

/-! ### The state after reset -/

/-- After reset every pixel of the grid resolves to opaque black (70_reset_and_hazards.md R236). -/
theorem reset_resolve? {x y : Nat} (hx : x < 288) (hy : y < 192) :
    State.reset.resolve? x y = some (.color (opaqueColor black)) := by
  have hzero : State.reset.pix.read (y * 288 + x) = 0 := rfl
  rw [resolve?_inside _ hx hy, hzero, lookupIndex_color _ _ _ (by decide)]
  exact congrArg (fun c => some (Lookup.color (opaqueColor c))) (reset_pal_get 0)

/-- Settles O45 with the look-up of the reset colours; the other elements stand in `State.reset`. -/
theorem resetStateIsBlackCleanEmpty : Obligations.ResetStateIsBlackCleanEmpty :=
  ⟨fun _ _ hx hy => ⟨rfl, reset_resolve? hx hy⟩, rfl, rfl, rfl, rfl, rfl, rfl⟩

end Sys2Proof.Proofs.StateRules
end

section
namespace Sys2Proof.Proofs.ScreenRams
open Sys2Proof.Machine

/-! ### The cells of a tile -/

theorem insideGrid_eq_true_iff (b : TileBlock) : insideGrid b = true ↔ b.column.toNat ≤ 47 ∧ b.row.toNat ≤ 15 := by
  simp [insideGrid]

theorem insideGrid_eq_false_iff (b : TileBlock) : insideGrid b = false ↔ 48 ≤ b.column.toNat ∨ 16 ≤ b.row.toNat := by
  rw [← Bool.not_eq_true, insideGrid_eq_true_iff]
  omega

/-- Inside the grid the walk skips none of the 72 cells (20_memory.md R60). -/
theorem tileCells_length_of_inside {b : TileBlock} (h : insideGrid b = true) : (tileCells b).length = 72 := by
  obtain ⟨hcolumn, hrow⟩ := (insideGrid_eq_true_iff b).mp h
  rw [tileCells_of_inside hcolumn hrow, List.length_map, tileCoords_length]

/-- Settles O18: the walk skips no cell of a tile inside the grid and every cell of one outside, and its addresses are
the distinct addresses of grid pixels. -/
theorem tileIsWhollyInsideOrOutside : Obligations.TileIsWhollyInsideOrOutside := fun b =>
  ⟨tileCells_length_of_inside, fun h => tileCells_of_outside ((insideGrid_eq_false_iff b).mp h), tileCells_nodup b,
    fun _ => tileCells_lt⟩

/-! ### The RAM each instruction writes -/

/-- Only `MEMPRE`, `TILE` and `TILEX` write `PIX` (20_memory.md R62). -/
theorem pixAfter_of_not_pixel_writer {i : Instr} (hmemPre : ∀ c r, i ≠ .memPre c r) (htile : ∀ b, i ≠ .tile b)
    (htileX : ∀ b, i ≠ .tileX b) (m : Memory) : pixAfter i m = m := by
  cases i with
  | memPre color reps => exact absurd rfl (hmemPre color reps)
  | tile b => exact absurd rfl (htile b)
  | tileX b => exact absurd rfl (htileX b)
  | border | scrlP | scrlC | transp | clutLo | clutHi | unsup | notCmd => rfl

/-- Only `CLUTLO` and `CLUTHI` write `PAL` (20_memory.md R62). -/
theorem palAfter_of_not_palette_writer {i : Instr} (hlow : ∀ es, i ≠ .clutLo es) (hhigh : ∀ es, i ≠ .clutHi es)
    (pal : Vector Rgb 16) : palAfter i pal = pal := by
  cases i with
  | clutLo es => exact absurd rfl (hlow es)
  | clutHi es => exact absurd rfl (hhigh es)
  | memPre | border | tile | scrlP | scrlC | transp | tileX | unsup | notCmd => rfl

/-- Settles O28: the state after an instruction is `State.applied`, which writes the two RAMs and `DIRTY` only, and a
RAM is written by its own instructions only. -/
theorem instructionsChangeOnlyTheirRam : Obligations.InstructionsChangeOnlyTheirRam := by
  intro i s t h
  have happlied : s.applied i = t := Host.Outcome.next.inj ((exec_eq i s).symm.trans h)
  subst happlied
  exact ⟨rfl, fun hmemPre htile htileX => pixAfter_of_not_pixel_writer hmemPre htile htileX s.pix,
    fun hlow hhigh => palAfter_of_not_palette_writer hlow hhigh s.pal⟩

end Sys2Proof.Proofs.ScreenRams
end

section
namespace Sys2Proof.Proofs.Encoding
open Sys2Proof.Machine

/-! ### The bytes of a packet -/

/-- A packet's bytes are consumed and what follows them is handed back. -/
theorem decodeBytes_toBytes_append (p : Packet) (rest : List Byte) :
    decodeBytes (p.toBytes ++ rest) = .ok (decode p, rest) := by
  have hlen := p.toBytes_length
  rw [decodeBytes, List.take_left' hlen, List.drop_left' hlen, Packet.ofBytes_toBytes]

/-- From 24 bytes on there is a first packet. -/
theorem exists_packet_of_length {bs : List Byte} (h : 24 ≤ bs.length) :
    ∃ p : Packet, p.toBytes ++ bs.drop 24 = bs := by
  obtain ⟨p, hp⟩ := Packet.ofBytes_exists (bs := bs.take 24) (List.length_take_of_le h)
  exact ⟨p, by rw [Packet.toBytes_of_ofBytes hp, List.take_append_drop]⟩

/-- No partial packet is framed (40_framer_dispatch.md R122). -/
theorem decodeBytes_of_short {bs : List Byte} (h : bs.length < 24) :
    decodeBytes bs = .error (.shortPacket bs.length) := by
  have hnone : Packet.ofBytes (bs.take 24) = none := by
    rw [Option.eq_none_iff_forall_ne_some]
    intro p hp
    have hlen : (bs.take 24).length = 24 := Packet.ofBytes_length hp
    rw [List.length_take] at hlen
    omega
  rw [decodeBytes, hnone]

/-! ### The decoder's case split -/

theorem unsup_wellFormed_iff (code : BitVec 6) : (Instr.unsup code).wellFormed = true ↔ code.toNat ∉ recognizedCodes := by
  simp [Instr.wellFormed]

theorem decodeCommand_wellFormed (code : BitVec 6) (pl : Vector Byte 16) : (decodeCommand code pl).wellFormed = true := by
  rcases decodeCommand_cases code pl with
    ⟨-, h⟩ | ⟨-, h⟩ | ⟨-, h⟩ | ⟨-, h⟩ | ⟨-, h⟩ | ⟨-, h⟩ | ⟨-, h⟩ | ⟨-, h⟩ | ⟨-, h⟩ | ⟨hcode, h⟩ <;> rw [h]
  exacts [rfl, rfl, rfl, rfl, rfl, rfl, rfl, rfl, rfl, (unsup_wellFormed_iff code).mpr hcode]

theorem decodeCommand_ne_notCmd (code : BitVec 6) (pl : Vector Byte 16) : decodeCommand code pl ≠ .notCmd := by
  rcases decodeCommand_cases code pl with
    ⟨-, h⟩ | ⟨-, h⟩ | ⟨-, h⟩ | ⟨-, h⟩ | ⟨-, h⟩ | ⟨-, h⟩ | ⟨-, h⟩ | ⟨-, h⟩ | ⟨-, h⟩ | ⟨-, h⟩ <;> rw [h] <;> nofun

theorem decodeCommand_of_not_recognized {code : BitVec 6} (h : code.toNat ∉ recognizedCodes) (pl : Vector Byte 16) :
    decodeCommand code pl = .unsup code := by
  have hcases := decodeCommand_cases code pl
  simp only [recognizedCodes, List.mem_cons, List.not_mem_nil, or_false, not_or] at h hcases
  simpa only [h, false_and, false_or, not_false_eq_true, and_self, true_and] using hcases

/-- A code reads its own format's operands and no other bit of the payload (30_encoding.md R95). -/
theorem decodeCommand_congr {code : BitVec 6} {pl pl' : Vector Byte 16}
    (hpreset : code.toNat = 1 → field pl[0] 0 4 = field pl'[0] 0 4 ∧ field pl[1] 0 4 = field pl'[1] 0 4)
    (htile : code.toNat ∈ [6, 38] → decodeTile pl = decodeTile pl')
    (hscroll : code.toNat ∈ [20, 24] → decodeScroll pl = decodeScroll pl')
    (hentries : code.toNat ∈ [30, 31] → decodeEntries pl = decodeEntries pl') :
    decodeCommand code pl = decodeCommand code pl' := by
  unfold decodeCommand
  split <;> simp_all

/-- The instruction of a packet selected by its opcode word (30_encoding.md R82). -/
theorem decode_of_opw {p : Packet} (c : Nat) (hc : c < 64) (h : p.opw &&& 0x3F3F = BitVec.ofNat 16 (0x0900 + c)) :
    decode p = decodeCommand (BitVec.ofNat 6 c) p.payload := by
  have hsel := (p.opw_select c hc).mp h
  have hcode : p.code = BitVec.ofNat 6 c := by rw [← hsel.2, BitVec.ofNat_toNat, BitVec.setWidth_eq]
  rw [decode_of_select hsel, hcode]

theorem decode_commandPacket (code : BitVec 6) (pl : Vector Byte 16) :
    decode (commandPacket code pl) = decodeCommand code pl := by
  have hcode : (commandPacket code pl).code = code := field_setWidth 6 (by decide) code
  have hcommand : (commandPacket code pl).isCommand = true := by
    rw [Packet.isCommand_iff]
    show (0x09 : Byte) &&& 0x3F = 0x09
    decide
  rw [decode_of_select ⟨hcommand, rfl⟩, hcode]
  rfl

theorem decode_ne_notCmd_iff (p : Packet) : decode p ≠ .notCmd ↔ p.isCommand = true := by
  by_cases h : p.isCommand = true
  · rw [decode_of_select ⟨h, rfl⟩]
    exact iff_of_true (decodeCommand_ne_notCmd _ _) h
  · exact iff_of_false (not_not_intro (decode_of_not_command h)) h

/-! ### Each format's operands, one by one -/

theorem tileBlock_ext {b b' : TileBlock} (hcolor0 : b.color0 = b'.color0) (hcolor1 : b.color1 = b'.color1)
    (hrow : b.row = b'.row) (hcolumn : b.column = b'.column) (hmask : ∀ cy : Fin 12, b.mask[cy] = b'.mask[cy]) :
    b = b' := by
  have hmask' : b.mask = b'.mask := Vector.ext fun cy hcy => hmask ⟨cy, hcy⟩
  cases b
  cases b'
  simp_all

theorem decodeTile_mask_get (pl : Vector Byte 16) (cy : Fin 12) :
    (decodeTile pl).mask[cy] = field pl[4 + cy.val] 0 6 := by
  match cy with
  | 0 | 1 | 2 | 3 | 4 | 5 | 6 | 7 | 8 | 9 | 10 | 11 => rfl

theorem encodeTile_mask_get (b : TileBlock) (cy : Fin 12) : (encodeTile b)[4 + cy.val] = b.mask[cy].setWidth 8 := by
  match cy with
  | 0 | 1 | 2 | 3 | 4 | 5 | 6 | 7 | 8 | 9 | 10 | 11 => rfl

theorem decodeEntries_get (pl : Vector Byte 16) (i : Fin 8) :
    (decodeEntries pl)[i] = decodeEntry pl[2 * i.val] pl[2 * i.val + 1] := by
  match i with
  | 0 | 1 | 2 | 3 | 4 | 5 | 6 | 7 => rfl

theorem encodeEntries_get (es : ClutEntries) (i : Fin 8) :
    (encodeEntries es)[2 * i.val] = entryHigh es[i] ∧ (encodeEntries es)[2 * i.val + 1] = entryLow es[i] := by
  match i with
  | 0 | 1 | 2 | 3 | 4 | 5 | 6 | 7 => exact ⟨rfl, rfl⟩

/-! ### Each format's operands in numbers -/

/-- Format `TB` (30_encoding.md R85). -/
theorem decodeTile_fieldsAre (p : Packet) : TileFieldsAre p (decodeTile p.payload) := by
  refine ⟨?_, ?_, ?_, ?_, fun cy => ?mask⟩
  case mask => rw [decodeTile_mask_get]; simp [field_toNat]
  all_goals simp [decodeTile, field_toNat]

/-- Format `SC` (30_encoding.md R86, R102). -/
theorem decodeScroll_fieldsAre (p : Packet) : ScrollFieldsAre p (decodeScroll p.payload) := by
  refine ⟨?_, ?_, ?_, ?_, ?_⟩ <;> simp only [decodeScroll, field_toNat] <;> omega

/-- Format `CT` under `CONCAT` (30_encoding.md R87, R90). -/
theorem decodeEntries_entriesAre (h : Config.clutRepack = .concat) (p : Packet) :
    EntriesAre p (decodeEntries p.payload) := by
  intro i
  rw [decodeEntries_get, decodeEntry_toNat h]

/-- The resolved colours of a load (30_encoding.md R91). -/
theorem resolveEntries_colorOf (es : ClutEntries) (i : Fin 8) : ColorOf es[i] (resolveEntries es)[i] := by
  rw [resolveEntries_get]
  obtain ⟨hr, hg, hb⟩ := resolveEntry_toNat es[i]
  have hlt := es[i].isLt
  exact ⟨by rw [hr]; omega, hg, hb⟩

/-! ### Each format's operands read back from the canonical payload -/

theorem decodeTile_encodeTile (b : TileBlock) : decodeTile (encodeTile b) = b := by
  refine tileBlock_ext ?_ ?_ ?_ ?_ fun cy => ?mask
  case mask => rw [decodeTile_mask_get, encodeTile_mask_get, field_setWidth 6 (by decide)]
  all_goals exact field_setWidth _ (by decide) _

theorem decodeScroll_encodeScroll (f : ScrollFields) : decodeScroll (encodeScroll f) = f := by
  simp [decodeScroll, encodeScroll, field_setWidth, field_hCmd, field_hOffset, field_vCmd, field_vOffset]

theorem decodeEntries_encodeEntries (es : ClutEntries) : decodeEntries (encodeEntries es) = es := by
  refine Vector.ext fun i hi => ?_
  obtain ⟨hhigh, hlow⟩ := encodeEntries_get es ⟨i, hi⟩
  refine (decodeEntries_get _ ⟨i, hi⟩).trans ?_
  rw [hhigh, hlow, decodeEntry_encoded]
  rfl

/-- The decoder undoes the canonical encoder (30_encoding.md R100). -/
theorem decode_encodePacket {i : Instr} (h : i.wellFormed = true) : decode (encodePacket i) = i := by
  cases i with
  | memPre color reps =>
    rw [encodePacket, decode_commandPacket]
    exact congrArg₂ Instr.memPre (field_setWidth 4 (by decide) color) (field_setWidth 4 (by decide) reps)
  | border | transp => exact decode_commandPacket _ zeroPayload
  | tile b => exact (decode_commandPacket 6 _).trans (congrArg Instr.tile (decodeTile_encodeTile b))
  | tileX b => exact (decode_commandPacket 38 _).trans (congrArg Instr.tileX (decodeTile_encodeTile b))
  | scrlP f => exact (decode_commandPacket 20 _).trans (congrArg Instr.scrlP (decodeScroll_encodeScroll f))
  | scrlC f => exact (decode_commandPacket 24 _).trans (congrArg Instr.scrlC (decodeScroll_encodeScroll f))
  | clutLo es => exact (decode_commandPacket 30 _).trans (congrArg Instr.clutLo (decodeEntries_encodeEntries es))
  | clutHi es => exact (decode_commandPacket 31 _).trans (congrArg Instr.clutHi (decodeEntries_encodeEntries es))
  | unsup code =>
    exact (decode_commandPacket code _).trans (decodeCommand_of_not_recognized ((unsup_wellFormed_iff code).mp h) _)
  | notCmd => exact decode_of_not_command (by decide)

/-- Settles O1: the canonical packet's bytes frame it again, and the decoder undoes the encoder on packets. -/
theorem decodeOfEncodeIsIdentity : Obligations.DecodeOfEncodeIsIdentity := by
  intro i h
  have hframe := decodeBytes_toBytes_append (encodePacket i) []
  rwa [List.append_nil, decode_encodePacket h] at hframe

/-- Settles O2: a packet that passes the command test decodes by its code, any other to `NOTCMD`. -/
theorem decodedInstructionIsWellFormed : Obligations.DecodedInstructionIsWellFormed := by
  intro p
  by_cases h : p.isCommand = true
  · rw [decode_of_select ⟨h, rfl⟩]
    exact decodeCommand_wellFormed _ _
  · rw [decode_of_not_command h]
    rfl

/-- Settles O3: 24 bytes are the bytes of a packet, fewer are not. -/
theorem onlyShortInputIsRejected : Obligations.OnlyShortInputIsRejected := by
  refine fun bs => ⟨fun h => ?_, decodeBytes_of_short⟩
  obtain ⟨p, hp⟩ := exists_packet_of_length h
  have hok := decodeBytes_toBytes_append p (bs.drop 24)
  rw [hp] at hok
  exact ⟨decode p, hok⟩

/-- Settles O6: both codes read the operands of format `TB`, and the record's `xor` field tells them apart. -/
theorem tileFormatFields : Obligations.TileFormatFields := fun p =>
  ⟨fun h => ⟨_, decode_of_opw 6 (by decide) h, decodeTile_fieldsAre p, rfl⟩,
    fun h => ⟨_, decode_of_opw 38 (by decide) h, decodeTile_fieldsAre p, rfl⟩⟩

/-- Settles O7: both codes read the entries of format `CT`, and the record carries their resolved colours. -/
theorem colorTableFormatEntries : Obligations.ColorTableFormatEntries := fun hmode p =>
  ⟨fun h => ⟨_, _, decode_of_opw 30 (by decide) h, decodeEntries_entriesAre hmode p, rfl, resolveEntries_colorOf _⟩,
    fun h => ⟨_, _, decode_of_opw 31 (by decide) h, decodeEntries_entriesAre hmode p, rfl, resolveEntries_colorOf _⟩⟩

/-! ### The ignored bits -/

/-- A field reads no bit from its end on. -/
theorem field_congr {b b' : Byte} {lo len : Nat} (n : Nat) (hn : lo + len ≤ n)
    (h : b.toNat % 2 ^ n = b'.toNat % 2 ^ n) : field b lo len = field b' lo len := by
  have hlow (c : Byte) : c.toNat / 2 ^ lo % 2 ^ len = c.toNat % 2 ^ n % 2 ^ (lo + len) / 2 ^ lo := by
    rw [Nat.mod_mod_of_dvd _ (Nat.pow_dvd_pow 2 hn), Nat.pow_add, Nat.mod_mul_right_div_self]
  apply BitVec.eq_of_toNat_eq
  rw [field_toNat, field_toNat, hlow, hlow, h]

theorem decodeEntry_congr {hi hi' lo lo' : Byte} (hhi : hi.toNat % 64 = hi'.toNat % 64)
    (hlo : lo.toNat % 64 = lo'.toNat % 64) : decodeEntry hi lo = decodeEntry hi' lo' := by
  rw [decodeEntry, field_congr 6 (by decide) hhi, field_congr 6 (by decide) hlo, ← decodeEntry]

theorem decodeEntries_congr {pl pl' : Vector Byte 16} (h : ∀ i : Fin 16, pl[i].toNat % 64 = pl'[i].toNat % 64) :
    decodeEntries pl = decodeEntries pl' := by
  have hget (i : Fin 8) : (decodeEntries pl)[i] = (decodeEntries pl')[i] := by
    rw [decodeEntries_get, decodeEntries_get]
    exact decodeEntry_congr (h ⟨2 * i.val, by omega⟩) (h ⟨2 * i.val + 1, by omega⟩)
  exact Vector.ext fun i hi => hget ⟨i, hi⟩

theorem decodeScroll_congr {pl pl' : Vector Byte 16} (h0 : pl[0].toNat % 16 = pl'[0].toNat % 16)
    (h1 : pl[1].toNat % 8 = pl'[1].toNat % 8) (h1' : pl[1].toNat % 64 / 16 = pl'[1].toNat % 64 / 16)
    (h2 : pl[2].toNat % 64 = pl'[2].toNat % 64) : decodeScroll pl = decodeScroll pl' := by
  have hhCmd : field pl[1] 4 2 = field pl'[1] 4 2 := by
    apply BitVec.eq_of_toNat_eq
    rw [field_toNat, field_toNat]
    omega
  rw [decodeScroll, decodeScroll, field_congr 4 (by decide) h0, hhCmd, field_congr 3 (by decide) h1,
    field_congr (lo := 4) (len := 2) 6 (by decide) h2, field_congr (lo := 0) (len := 4) 6 (by decide) h2]

theorem decodeTile_congr {pl pl' : Vector Byte 16} (hrow : pl[2].toNat % 32 = pl'[2].toNat % 32)
    (h : ∀ i : Fin 16, i.val ≠ 2 → pl[i].toNat % 64 = pl'[i].toNat % 64) : decodeTile pl = decodeTile pl' := by
  have hfield (i : Fin 16) (hi : i.val ≠ 2) : field pl[i] 0 6 = field pl'[i] 0 6 := field_congr 6 (by decide) (h i hi)
  refine tileBlock_ext (hfield 0 (by decide)) (hfield 1 (by decide)) (field_congr 5 (by decide) hrow)
    (hfield 3 (by decide)) fun cy => ?_
  rw [decodeTile_mask_get, decodeTile_mask_get]
  exact hfield ⟨4 + cy.val, by omega⟩ (by simp; omega)

/-- Two command packets with one code differ in their payloads only, as far as the decoder reads them. -/
theorem decode_congr_of_sameOpcode {p q : Packet} (hop : SameOpcode p q)
    (h : ∀ code : BitVec 6, code.toNat = p.instruction.toNat % 64 →
      decodeCommand code p.payload = decodeCommand code q.payload) : decode p = decode q := by
  obtain ⟨hp, hq, hinstruction⟩ := hop
  have hcode : p.code = q.code := by rw [← BitVec.toNat_inj, p.code_toNat, q.code_toNat, hinstruction]
  rw [decode_of_select ⟨p.isCommand_iff_mod.mpr hp, rfl⟩, decode_of_select ⟨q.isCommand_iff_mod.mpr hq, rfl⟩, ← hcode]
  exact h _ p.code_toNat

/-- Settles O8: the opcode's upper bits and the parity are not read at all, and of the payload each code reads its
format's operands. In the last four clauses `grind` refutes that the code is also one of another format's. -/
theorem ignoredBitsHaveNoEffect : Obligations.IgnoredBitsHaveNoEffect := by
  intro p q
  refine ⟨fun hp hq => ?_, fun hop h => ?_, fun hop hother => ?_, fun hop hone h0 h1 => ?_,
    fun hop hscroll h0 h1 h1' h2 => ?_, fun hop htile hrow h => ?_⟩
  · have hnot (r : Packet) (hr : r.command.toNat % 64 ≠ 9) : decode r = .notCmd :=
      decode_of_not_command (mt r.isCommand_iff_mod.mp hr)
    rw [hnot p hp, hnot q hq]
  all_goals refine decode_congr_of_sameOpcode hop fun code hcode => ?_
  · have hlow (i : Fin 16) (d : Nat) (hd : d ∣ 64) : p.payload[i].toNat % d = q.payload[i].toNat % d :=
      Nat.ModEq.of_dvd hd (h i)
    exact decodeCommand_congr
      (fun _ => ⟨field_congr 6 (by decide) (h 0), field_congr 6 (by decide) (h 1)⟩)
      (fun _ => decodeTile_congr (hlow 2 32 (by decide)) fun i _ => h i)
      (fun _ => decodeScroll_congr (hlow 0 16 (by decide)) (hlow 1 8 (by decide)) (congrArg (· / 16) (h 1)) (h 2))
      (fun _ => decodeEntries_congr h)
  · exact decodeCommand_congr (by grind) (by grind) (by grind) (by grind)
  · exact decodeCommand_congr (fun _ => ⟨field_congr 4 (by decide) h0, field_congr 4 (by decide) h1⟩)
      (by grind) (by grind) (by grind)
  · exact decodeCommand_congr (by grind) (by grind) (fun _ => decodeScroll_congr h0 h1 h1' h2) (by grind)
  · exact decodeCommand_congr (by grind) (fun _ => decodeTile_congr hrow h) (by grind) (by grind)

/-- Settles O4: the command test decides between `NOTCMD` and the codes, and fixes six of the command byte's bits. -/
theorem commandTestIsTheSoleCriterion : Obligations.CommandTestIsTheSoleCriterion := by
  intro p
  refine ⟨(decode_ne_notCmd_iff p).trans p.isCommand_iff, ?_⟩
  rw [← p.isCommand_iff, p.isCommand_iff_mod]
  have hlt := p.command.isLt
  simp [← BitVec.toNat_inj]
  omega

/-- Settles O5: code 1 reads the two nibbles of format `MP`. -/
theorem presetFormatFields : Obligations.PresetFormatFields := fun p h =>
  ⟨_, _, decode_of_opw 1 (by decide) h, by simp [field_toNat], by simp [field_toNat]⟩

/-- Settles O10 by running the decoder on the seven packets. -/
theorem knownPacketsDecode : Obligations.KnownPacketsDecode := by
  refine ⟨?_, ?_, ?_, ?_, ?_, ?_, ?_⟩ <;> rfl

/-! ### Colours -/

/-- A pixel that resolves is opaque (45_host_ops.md R194). -/
theorem resolve?_alpha {s : State} {x y : Nat} {c : Rgba} (h : s.resolve? x y = some (.color c)) : c.a = 255 := by
  obtain ⟨a, -, hlookup⟩ := Option.map_eq_some_iff.mp h
  by_cases hidx : (s.pixRead a).toNat < 16
  · rw [lookupIndex_color s x y hidx] at hlookup
    cases hlookup
    rfl
  · rw [lookupIndex_error s x y (by omega)] at hlookup
    cases hlookup

/-- Times 17 repeats the nibble (30_encoding.md R91). -/
theorem x17_eq_append (n : Nibble) : x17 n = n ++ n := by
  apply BitVec.eq_of_toNat_eq
  rw [x17_toNat, BitVec.toNat_append, ← Nat.shiftLeft_add_eq_or_of_lt n.isLt, Nat.shiftLeft_eq]
  omega

/-- Settles O11: the expansion in numbers and as bits, the colours of a load by `resolveEntry`, and the opaque look-up. -/
theorem nibbleExpansionIsTimesSeventeen : Obligations.NibbleExpansionIsTimesSeventeen :=
  ⟨fun n => ⟨x17_toNat n, x17_eq_append n⟩, resolveEntries_colorOf, fun _ _ _ _ => resolve?_alpha⟩

/-! ### The instructions without effect -/

/-- A packet whose instruction changes nothing is retired under its own record and has no other effect. -/
theorem applyPacket_of_inert {p : Packet} {i : Instr} {s : State} (hdecode : decode p = i) (hexec : exec i s = .next s) :
    applyPacket p s = .next { s with buf := [], cnt := 0, outbox := s.outbox ++ [.retired (outcomeOf i)] } := by
  rw [applyPacket, hdecode, hexec]
  rfl

/-- Settles O22: both codes read the operands of format `SC` and retire with them, `exec` changing nothing. -/
theorem scrollIsDecodedAndInert : Obligations.ScrollIsDecodedAndInert := by
  refine ⟨fun f s => ⟨rfl, rfl⟩, fun p s h => ?_, fun p s h => ?_⟩
  · have hdecode : decode p = .scrlP (decodeScroll p.payload) := decode_of_opw 20 (by decide) h
    exact ⟨_, hdecode, decodeScroll_fieldsAre p, applyPacket_of_inert hdecode rfl⟩
  · have hdecode : decode p = .scrlC (decodeScroll p.payload) := decode_of_opw 24 (by decide) h
    exact ⟨_, hdecode, decodeScroll_fieldsAre p, applyPacket_of_inert hdecode rfl⟩

/-- Settles O21: neither code reads the payload, and `exec` changes nothing. -/
theorem borderAndTransparentAreInert : Obligations.BorderAndTransparentAreInert := by
  refine ⟨fun s => ⟨rfl, rfl⟩, fun p s h => ?_, fun p s h => ?_, fun _ _ _ _ => resolve?_alpha⟩
  · have hdecode : decode p = .border := decode_of_opw 2 (by decide) h
    exact ⟨hdecode, applyPacket_of_inert hdecode rfl⟩
  · have hdecode : decode p = .transp := decode_of_opw 28 (by decide) h
    exact ⟨hdecode, applyPacket_of_inert hdecode rfl⟩

end Sys2Proof.Proofs.Encoding
end

section
namespace Sys2Proof.Proofs.FramerDispatch
open Sys2Proof.Machine Sys2Proof.Proofs.Encoding

/-! ### Framing -/

theorem length_toBytes (p : Packet) : p.toBytes.length = 24 := p.toBytes_length

/-- A packet's bytes but the last, and the last, which completes it. -/
theorem exists_last_byte (p : Packet) : ∃ bs b, bs.length = 23 ∧ bs ++ [b] = p.toBytes := by
  have hlen := length_toBytes p
  have hne : p.toBytes ≠ [] := List.ne_nil_of_length_pos (by omega)
  have hinit : p.toBytes.dropLast.length = 23 := by rw [List.length_dropLast, hlen]
  exact ⟨p.toBytes.dropLast, p.toBytes.getLast hne, hinit, List.dropLast_append_getLast hne⟩

/-- Settles O9: 24 bytes are framed, framed bytes are written out again, and the five fields are framed from their bytes. -/
theorem framingRoundTrips : Obligations.FramingRoundTrips := by
  refine ⟨fun bs hlen => ?_, Packet.ofBytes_toBytes⟩
  obtain ⟨p, hp⟩ := Packet.ofBytes_exists (bs := bs) hlen
  refine ⟨p, hp, ?_⟩
  have hbytes : p.toBytes = bs := Packet.toBytes_of_ofBytes hp
  rw [← hbytes]
  simp [Packet.toBytes]

/-! ### The two outcomes that are no instruction -/

/-- Settles O26: a code outside the nine decodes to `UNSUP`, which `exec` gives no effect. -/
theorem unsupportedCodesChangeNothing : Obligations.UnsupportedCodesChangeNothing := by
  refine ⟨fun _ _ => rfl, fun p s hcommand hcode => ⟨p.code, p.code_toNat, ?_⟩⟩
  have hother : p.code.toNat ∉ recognizedCodes := p.code_toNat ▸ hcode
  have hdecode : decode p = .unsup p.code := by
    rw [decode_of_select ⟨p.isCommand_iff.mpr hcommand, rfl⟩, decodeCommand_of_not_recognized hother]
  exact ⟨hdecode, applyPacket_of_inert hdecode rfl⟩

/-- Settles O27: a packet that fails the command test decodes to `NOTCMD`, which `exec` gives no effect. -/
theorem nonCommandPacketsChangeNothing : Obligations.NonCommandPacketsChangeNothing := by
  refine ⟨fun _ => rfl, fun p s hcommand => ?_⟩
  have hdecode : decode p = .notCmd := decode_of_not_command (mt p.isCommand_iff.mp hcommand)
  exact ⟨hdecode, applyPacket_of_inert hdecode rfl⟩

/-! ### The retire -/

/-- Settles O31 with a packet's whole effect: the instruction writes the screen, the retire the buffer and the record. -/
theorem everyPacketRetires : Obligations.EveryPacketRetires := fun p s =>
  ⟨_, applyPacket_eq p s, rfl, rfl, rfl, rfl, rfl⟩

/-- A packet's effect depends on its bytes as framed, not on the framer's buffer, which the retire empties. -/
theorem applyPacket_storeByte (p : Packet) (b : Byte) (s : State) : applyPacket p (s.storeByte b) = applyPacket p s := by
  rw [applyPacket_eq, applyPacket_eq]
  rfl

/-! ### One byte of a packet -/

/-- The state that has stored `bs` from `BUF[CNT]` on, has counted to `c` and has `rest` still to come. -/
def buffering (bs : List Byte) (c : Fin 24) (rest : List Event) (s : State) : State :=
  { s with buf := s.buf.take s.cnt ++ bs, cnt := c, inbox := rest }

/-- From a packet boundary the buffer holds just the bytes stored. -/
theorem buffering_buf_of_boundary (bs : List Byte) (c : Fin 24) (rest : List Event) {s : State} (h : s.cnt.val = 0) :
    (buffering bs c rest s).buf = bs := by
  rw [buffering, h, List.take_zero, List.nil_append]

/-- Bytes are stored behind those that the counter counts. -/
theorem buffering_buffering {b : Byte} {c : Fin 24} {s : State} (hc : c.val = s.cnt.val + 1) (bs : List Byte)
    (c' : Fin 24) (rest rest' : List Event) :
    buffering bs c' rest' (buffering [b] c rest s) = buffering (b :: bs) c' rest' s := by
  have hheld : (s.buf.take s.cnt ++ [b]).take c = s.buf.take s.cnt ++ [b] :=
    List.take_of_length_le (by simp [hc])
  simp only [buffering, hheld, List.append_assoc, List.singleton_append]

/-- The step of a byte before the 24th (40_framer_dispatch.md R120). -/
theorem step_store {s : State} {b : Byte} {rest : List Event} {c : Fin 24} (hrun : s.session = .run)
    (hc : c.val = s.cnt.val + 1) (hinbox : s.inbox = .pushByte b :: rest) :
    step s = .next (buffering [b] c rest s) := by
  have hroom : s.cnt.val + 1 < 24 := hc ▸ c.isLt
  obtain rfl : c = ⟨s.cnt.val + 1, hroom⟩ := Fin.ext hc
  rw [step_event hinbox]
  exact pushByte_store (s := s.setInbox rest) b hrun hroom

/-- The step of the 24th byte applies the packet that `BUF` and this byte hold (40_framer_dispatch.md R121). -/
theorem step_complete {s : State} {p : Packet} {b : Byte} {rest : List Event} (hrun : s.session = .run)
    (hcnt : s.cnt.val = 23) (hbytes : s.buf ++ [b] = p.toBytes) (hinbox : s.inbox = .pushByte b :: rest) :
    step s = applyPacket p (s.setInbox rest) := by
  have hheld : s.buf.length + 1 = 24 := by
    rw [← length_toBytes p, ← hbytes, List.length_append, List.length_singleton]
  have hkept : s.buf.take s.cnt = s.buf := List.take_of_length_le (by omega)
  have hstored : ((s.setInbox rest).storeByte b).buf = p.toBytes := hbytes ▸ congrArg (· ++ [b]) hkept
  have hframed : Packet.ofBytes ((s.setInbox rest).storeByte b).buf = some p := by
    rw [hstored, Packet.ofBytes_toBytes]
  rw [step_event hinbox, react, pushByte_complete (s := s.setInbox rest) b hrun hcnt, retirePacket_eq hframed,
    applyPacket_storeByte]

/-- Settles O32: the `CNT` bytes that `BUF` holds stay before the new one. -/
theorem pushByteIsStoredAndCounted : Obligations.PushByteIsStoredAndCounted := by
  intro s b rest hrun hcnt hheld hinbox
  have hkept : s.buf.take s.cnt = s.buf := List.take_of_length_le (Nat.le_of_eq hheld)
  have hroom : s.cnt.val + 1 < 24 := by omega
  refine ⟨⟨s.cnt.val + 1, hroom⟩, rfl, ?_⟩
  rw [step_store (c := ⟨s.cnt.val + 1, hroom⟩) hrun rfl hinbox, buffering, hkept]

/-- Settles O33: the 24 bytes are a packet's, which decodes, and the step is its retire. -/
theorem stepRunsTheDecodedInstruction : Obligations.StepRunsTheDecodedInstruction := by
  intro s b rest hrun hcnt hheld hinbox
  obtain ⟨p, -, hbytes⟩ := storeByte_packet b (hheld.trans hcnt.symm) hcnt
  have hdecode := decodeBytes_toBytes_append p []
  rw [List.append_nil, hbytes] at hdecode
  refine ⟨decode p, hdecode, decodedInstructionIsWellFormed p, ?_⟩
  rw [step_complete hrun hcnt hbytes.symm hinbox, applyPacket_eq, exec_eq]
  rfl

/-! ### A packet placed where the next step takes it -/

/-- A loaded packet is applied by the next step. -/
theorem step_loadPacketBytes (p : Packet) (s : State) :
    step (s.loadPacketBytes p.toBytes) = applyPacket p (s.setSession .run) := by
  obtain ⟨bs, b, hlen, hbytes⟩ := exists_last_byte p
  have hbuf : (s.loadPacketBytes p.toBytes).buf = bs := by
    rw [← hbytes]
    exact List.take_left' hlen
  have hinbox : (s.loadPacketBytes p.toBytes).inbox = .pushByte b :: s.inbox := by
    rw [← hbytes]
    exact congrArg (fun last => last.map Event.pushByte ++ s.inbox) (List.drop_left' hlen)
  rw [step_complete rfl rfl (hbuf ▸ hbytes) hinbox, applyPacket_eq, applyPacket_eq]
  rfl

/-- A table word is a packet, and its instruction the one that the packet decodes to. -/
theorem exists_packet_of_tableWord (nbits w : Nat) :
    ∃ p : Packet, p.toBytes = tableWordBytes nbits w ∧ decodeTableWord nbits w = some (decode p) := by
  have hlen : (tableWordBytes nbits w).length = 24 := by rw [tableWordBytes, List.length_map, List.length_range]
  obtain ⟨p, hp⟩ := Packet.ofBytes_exists hlen
  have hbytes := Packet.toBytes_of_ofBytes hp
  have hdecode := decodeBytes_toBytes_append p []
  rw [List.append_nil, hbytes] at hdecode
  exact ⟨p, hbytes, by rw [decodeTableWord, hdecode]⟩

/-- Settles O34: the table word is a packet, loaded and then applied by the step. -/
theorem fetchWordRunsTheTableInstruction : Obligations.FetchWordRunsTheTableInstruction := by
  intro s nbits w i hword
  obtain ⟨p, hbytes, hdecode⟩ := exists_packet_of_tableWord nbits w
  obtain rfl : decode p = i := Option.some.inj (hdecode.symm.trans hword)
  refine ⟨_, exec_eq _ s, ?_⟩
  rw [State.withFetchWord, ← hbytes, step_loadPacketBytes, applyPacket_eq]
  rfl

/-! ### The end of the stream -/

/-- Settles O35 with the two ends of a session in `RUN`. -/
theorem endOfStreamEndsTheSession : Obligations.EndOfStreamEndsTheSession := by
  intro s rest hrun hinbox
  rw [step_event hinbox]
  exact ⟨endOfStream_clean (s := s.setInbox rest) hrun, endOfStream_short (s := s.setInbox rest) hrun⟩

/-- Settles O36: each of the two stream events tests the session first. -/
theorem streamEventsOutsideRunAreRefused : Obligations.StreamEventsOutsideRunAreRefused := by
  intro s e rest hrun hinbox hstream
  rw [step_event hinbox]
  rcases hstream with ⟨b, rfl⟩ | rfl
  · exact pushByte_refused (s := s.setInbox rest) b hrun
  · exact endOfStream_refused (s := s.setInbox rest) hrun

/-! ### Runs over the bytes of a packet -/

/-- A run is continued from the state that its first steps reach. -/
theorem runSteps_add {m : Nat} {s t : State} (n : Nat) (h : runSteps m s = .next t) :
    runSteps (m + n) s = runSteps n t := by
  induction m generalizing s with
  | zero =>
    cases h
    rw [Nat.zero_add]
  | succ m ih =>
    rw [Nat.succ_add]
    cases hstep : step s with
    | next u => rw [runSteps_next _ hstep] at h ⊢; exact ih h
    | fault f => rw [runSteps, hstep] at h; cases h
    | refused r => rw [runSteps, hstep] at h; cases h

theorem runSteps_one (s : State) : runSteps 1 s = step s := by
  rw [runSteps]
  cases step s <;> rfl

/-- Bytes that do not complete a packet are stored and counted one by one. (With no byte the buffer is not touched, and
what it holds beyond `CNT` stays.) -/
theorem runSteps_store {bs : List Byte} (hne : bs ≠ []) {s : State} {rest : List Event} {c : Fin 24}
    (hrun : s.session = .run) (hc : c.val = s.cnt.val + bs.length) (hinbox : s.inbox = bs.map .pushByte ++ rest) :
    runSteps bs.length s = .next (buffering bs c rest s) := by
  induction bs generalizing s with
  | nil => exact absurd rfl hne
  | cons b bs ih =>
    rw [List.length_cons] at hc ⊢
    by_cases hbs : bs = []
    · subst hbs
      exact (runSteps_one s).trans (step_store hrun hc hinbox)
    · obtain ⟨next, hnext⟩ : ∃ next : Fin 24, next.val = s.cnt.val + 1 := ⟨⟨s.cnt.val + 1, by omega⟩, rfl⟩
      have hfirst : step s = .next (buffering [b] next (bs.map .pushByte ++ rest) s) := step_store hrun hnext hinbox
      have hcount : c.val = next.val + bs.length := by omega
      rw [runSteps_next _ hfirst, ih hbs (s := buffering [b] next _ s) hrun hcount rfl, buffering_buffering hnext]

/-- A packet's bytes from a packet boundary are applied as that packet (40_framer_dispatch.md R132). -/
theorem runSteps_packet {p : Packet} {s : State} {rest : List Event} (hrun : s.session = .run) (hcnt : s.cnt.val = 0)
    (hinbox : s.inbox = p.toBytes.map .pushByte ++ rest) : runSteps 24 s = applyPacket p (s.setInbox rest) := by
  obtain ⟨bs, b, hlen, hbytes⟩ := exists_last_byte p
  have hne : bs ≠ [] := List.ne_nil_of_length_pos (by omega)
  have hsplit : s.inbox = bs.map .pushByte ++ .pushByte b :: rest := by
    rw [hinbox, ← hbytes, List.map_append, List.append_assoc]
    rfl
  have hstored := runSteps_store (c := 23) hne hrun (by rw [hcnt, hlen]; rfl) hsplit
  rw [hlen] at hstored
  have hheld := buffering_buf_of_boundary bs 23 (.pushByte b :: rest) hcnt
  calc runSteps 24 s
    _ = step (buffering bs 23 (.pushByte b :: rest) s) := (runSteps_add 1 hstored).trans (runSteps_one _)
    _ = applyPacket p (buffering bs 23 rest s) := step_complete hrun rfl (by rw [hheld, hbytes]) rfl
    _ = applyPacket p (s.setInbox rest) := by rw [applyPacket_eq, applyPacket_eq]; rfl

/-- Settles O38: the run over a packet's bytes is that packet's retire. -/
theorem twentyFourBytesAreOnePacket : Obligations.TwentyFourBytesAreOnePacket := fun p s rest hrun hcnt hinbox =>
  ⟨_, applyPacket_eq p (s.setInbox rest), (runSteps_packet hrun hcnt hinbox).trans (applyPacket_eq p _)⟩

/-! ### A stream as packets and a tail -/

/-- The bytes of a stream of packets. -/
def packetBytes (ps : List Packet) : List Byte := ps.flatMap Packet.toBytes

theorem packetBytes_cons (p : Packet) (ps : List Packet) : packetBytes (p :: ps) = p.toBytes ++ packetBytes ps := rfl

theorem length_packetBytes (ps : List Packet) : (packetBytes ps).length = 24 * ps.length := by
  induction ps with
  | nil => rfl
  | cons p ps ih =>
    rw [packetBytes_cons, List.length_append, length_toBytes, ih, List.length_cons, Nat.mul_succ, Nat.add_comm]

/-- Any bytes are whole packets and a tail too short to be one. -/
theorem exists_packets (bs : List Byte) : ∃ ps tail, packetBytes ps ++ tail = bs ∧ tail.length < 24 := by
  by_cases hshort : bs.length < 24
  · exact ⟨[], bs, rfl, hshort⟩
  · obtain ⟨p, hp⟩ := exists_packet_of_length (Nat.le_of_not_lt hshort)
    obtain ⟨ps, tail, hrest, htail⟩ := exists_packets (bs.drop 24)
    exact ⟨p :: ps, tail, by rw [packetBytes_cons, List.append_assoc, hrest, hp], htail⟩
  termination_by bs.length
  decreasing_by rw [List.length_drop]; omega

/-- `frame` takes the packet at the head of the stream and goes on with the rest. -/
theorem frame_toBytes_append (p : Packet) (bs : List Byte) :
    frame (p.toBytes ++ bs) = (p.toBytes :: (frame bs).1, (frame bs).2) := by
  have hlen : (p.toBytes ++ bs).length = bs.length + 24 := by rw [List.length_append, length_toBytes, Nat.add_comm]
  have hfirst : (p.toBytes ++ bs).take 24 = p.toBytes := List.take_left' (length_toBytes p)
  have hlater (j : Nat) : (p.toBytes ++ bs).drop (24 * (j + 1)) = bs.drop (24 * j) := by
    rw [Nat.mul_succ, Nat.add_comm, ← List.drop_drop, List.drop_left' (length_toBytes p)]
  simp [frame, hlen, hfirst, hlater, List.range_succ_eq_map]

/-- How the tail of a stream ends it (40_framer_dispatch.md R124). -/
def endOfTail (tail : List Byte) : StreamEnd := if tail.length = 0 then .cleanEnd else .shortRead tail.length

/-- `frame` on packets and a tail. -/
theorem frame_packets (ps : List Packet) {tail : List Byte} (htail : tail.length < 24) :
    frame (packetBytes ps ++ tail) = (ps.map Packet.toBytes, endOfTail tail) := by
  induction ps with
  | nil =>
    show frame tail = ([], endOfTail tail)
    rw [frame, Nat.div_eq_of_lt htail, Nat.mod_eq_of_lt htail]
    rfl
  | cons p ps ih => rw [packetBytes_cons, List.append_assoc, frame_toBytes_append, ih, List.map_cons]

/-! ### Packets, one after another -/

/-- The events still to come take no part in a packet. -/
theorem applyPackets_setInbox {ps : List Packet} {s u : State} (h : applyPackets ps s = .next u) (rest : List Event) :
    applyPackets ps (s.setInbox rest) = .next (u.setInbox rest) := by
  induction ps generalizing s with
  | nil =>
    cases h
    rfl
  | cons p ps ih =>
    rw [applyPackets_cons] at h ⊢
    exact ih h

/-- Packets from a packet boundary all retire, each under its record, and leave a packet boundary. -/
theorem applyPackets_retires (ps : List Packet) {s : State} (hcnt : s.cnt.val = 0) :
    ∃ u, applyPackets ps s = .next u ∧ u.cnt.val = 0 ∧ u.session = s.session ∧
      u.outbox = s.outbox ++ ps.map fun p => .retired (outcomeOf (decode p)) := by
  induction ps generalizing s with
  | nil => exact ⟨s, rfl, hcnt, rfl, (List.append_nil _).symm⟩
  | cons p ps ih =>
    obtain ⟨u, happly, hcnt', hsession, houtbox⟩ := ih (s := (s.applied (decode p)).retire (outcomeOf (decode p))) rfl
    exact ⟨u, (applyPackets_cons p ps s).trans happly, hcnt', hsession, houtbox.trans (List.append_assoc _ _ _)⟩

/-- A run over whole packets from a packet boundary is their application one after another (20_memory.md R66). -/
theorem runSteps_packets {ps : List Packet} {s u : State} {rest : List Event} (hrun : s.session = .run)
    (hcnt : s.cnt.val = 0) (hinbox : s.inbox = (packetBytes ps).map .pushByte ++ rest)
    (happly : applyPackets ps (s.setInbox rest) = .next u) : runSteps (24 * ps.length) s = .next u := by
  induction ps generalizing s with
  | nil =>
    obtain rfl : rest = s.inbox := hinbox.symm
    exact happly
  | cons p ps ih =>
    rw [packetBytes_cons, List.map_append, List.append_assoc] at hinbox
    rw [applyPackets_cons] at happly
    have hpacket := (runSteps_packet hrun hcnt hinbox).trans (applyPacket_eq p _)
    rw [List.length_cons, Nat.mul_succ, Nat.add_comm, runSteps_add _ hpacket]
    exact ih hrun rfl rfl happly

/-- A run over a tail inside a packet and `EndOfStream` ends in `ShortRead` (40_framer_dispatch.md R122). -/
theorem runSteps_shortRead {tail : List Byte} (hne : tail ≠ []) {s : State} {c : Fin 24} (hrun : s.session = .run)
    (hcnt : s.cnt.val = 0) (hc : c.val = tail.length) (hinbox : s.inbox = tail.map .pushByte ++ [.endOfStream]) :
    runSteps (tail.length + 1) s = .next
      { s with buf := tail, cnt := c, session := .err, inbox := [],
               outbox := s.outbox ++ [.raised (.shortRead c.val)] } := by
  have hstored := runSteps_store (c := c) hne hrun (by omega) hinbox
  have hleft : c.val ≠ 0 := hc ▸ (List.length_pos_iff.mpr hne).ne'
  have hheld := buffering_buf_of_boundary tail c [.endOfStream] hcnt
  rw [runSteps_add 1 hstored, runSteps_one,
    (endOfStreamEndsTheSession (buffering tail c [.endOfStream] s) [] hrun rfl).2 hleft, hheld]
  rfl

/-- Settles O39: the stream is packets and a tail; the run over the packets is their application, and the tail, empty or
not, decides how `EndOfStream` ends the session. -/
theorem eventMachineComputesFrame : Obligations.EventMachineComputesFrame := by
  intro bs s hrun hcnt hinbox
  obtain ⟨ps, tail, rfl, htail⟩ := exists_packets bs
  obtain ⟨u, happly, hcnt', hsession, houtbox⟩ := applyPackets_retires ps (s := s.setInbox []) hcnt
  have hrun' : u.session = .run := hsession.trans hrun
  have hlen : (packetBytes ps ++ tail).length = 24 * ps.length + tail.length := by
    rw [List.length_append, length_packetBytes]
  rw [List.map_append, List.append_assoc] at hinbox
  have hpackets := runSteps_packets hrun hcnt hinbox (applyPackets_setInbox happly _)
  rw [frame_packets ps htail, hlen, Nat.mul_add_mod, Nat.mod_eq_of_lt htail, Nat.add_assoc, runSteps_add _ hpackets]
  by_cases hempty : tail = []
  · subst hempty
    have hend := (endOfStreamEndsTheSession (u.setInbox [.endOfStream]) [] hrun' rfl).1 hcnt'
    exact ⟨ps, u, _, rfl, happly, houtbox, (runSteps_one _).trans hend, rfl, rfl, rfl, rfl,
      fun _ => ⟨rfl, rfl, hcnt', rfl⟩, nofun⟩
  · have hleft : tail.length ≠ 0 := (List.length_pos_iff.mpr hempty).ne'
    have hend : endOfTail tail = .shortRead tail.length := if_neg hleft
    have hdrop : (packetBytes ps ++ tail).drop (24 * ps.length) = tail := List.drop_left' (length_packetBytes ps)
    refine ⟨ps, u, _, rfl, happly, houtbox, runSteps_shortRead (c := ⟨_, htail⟩) hempty hrun' hcnt' rfl rfl,
      rfl, rfl, rfl, rfl, fun hclean => ?_, fun r hshort => ?_⟩
    · cases hend.symm.trans hclean
    · cases hend.symm.trans hshort
      exact ⟨rfl, hleft, rfl, rfl, by rw [Nat.add_sub_cancel, hdrop], rfl⟩

end Sys2Proof.Proofs.FramerDispatch
end

section
namespace Sys2Proof.Proofs.Preset
open Sys2Proof.Machine

/-! ### What `MEMPRE` does -/

/-- `repeat` changes nothing, and `PIX` and `DIRTY` are all that is written (41_preset.md R140). -/
theorem exec_memPre (color reps : Nibble) (s : State) :
    exec (.memPre color reps) s = .next (s.pixFill (color.setWidth 6)) := rfl

theorem pixFill_pixFill (s : State) (v : Pixel) : (s.pixFill v).pixFill v = s.pixFill v := rfl

/-- The pixel value that `MEMPRE` writes is the number `color`, an index of the palette. -/
theorem setWidth_color_toNat (color : Nibble) : (color.setWidth 6 : Pixel).toNat = color.toNat :=
  BitVec.toNat_setWidth_of_le (by decide)

/-- After a fill with a palette index every pixel of the grid resolves to that entry (45_host_ops.md R194). -/
theorem resolve?_pixFill (s : State) {v : Pixel} {i x y : Nat} (hi : i < 16) (hv : v.toNat = i) (hx : x < 288)
    (hy : y < 192) : (s.pixFill v).resolve? x y = some (.color (opaqueColor s.pal[i])) := by
  subst hv
  have hread : (s.pixFill v).pix.read (y * 288 + x) = v := by
    rw [State.pixFill_pix, Memory.read_fill, if_pos (show y * 288 + x < 55296 by omega)]
  rw [resolve?_inside _ hx hy, hread, lookupIndex_color _ _ _ hi]
  rfl

/-- Settles O14: the fill puts the palette index `color` in every pixel. -/
theorem memPreMakesEveryPixelResolvable : Obligations.MemPreMakesEveryPixelResolvable := fun color reps s =>
  ⟨_, exec_memPre color reps s, fun _ _ => resolve?_pixFill s color.isLt (setWidth_color_toNat color)⟩

/-! ### The encoding, the fill and its fixed point -/

/-- The low nibble of a byte, as a field and as a mask (30_encoding.md R84). -/
theorem field_low_nibble (b : Byte) : field b 0 4 = (b &&& 0x0F).setWidth 4 := by
  have hmask : (b &&& 0x0F).toNat = b.toNat % 16 := by
    rw [BitVec.toNat_and]
    exact Nat.and_two_pow_sub_one_eq_mod b.toNat 4
  apply BitVec.eq_of_toNat_eq
  rw [field_toNat, BitVec.toNat_setWidth, hmask]
  omega

/-- Settles O12: the operands are the low nibbles of the first two payload bytes, and the filled RAM is the memory in
question. -/
theorem memPreFillsEveryPixel : Obligations.MemPreFillsEveryPixel := by
  refine ⟨fun p h => ?encoding, fun color reps s => ?fill⟩
  case encoding =>
    exact ⟨_, _, Encoding.decode_of_opw 1 (by decide) h, field_low_nibble _, field_low_nibble _, rfl⟩
  case fill =>
    exact ⟨Memory.fill (color.setWidth 6), exec_memPre color reps s, Memory.wf_fill _,
      fun a ha => (Memory.read_fill _ a).trans (if_pos ha),
      (exec_memPre color reps _).trans (congrArg _ (pixFill_pixFill s _)),
      fun x y hx hy => ⟨_, resolve?_pixFill s color.isLt (setWidth_color_toNat color) hx hy⟩⟩

/-! ### The loop of the rule -/

/-- The cells that the rule's loop writes, in order: every address of the RAM with the value `v`. -/
def fillCells (v : Pixel) : List (Nat × Pixel) := (List.range Config.nPix).map fun a => (a, v)

theorem mem_fillCells {v w : Pixel} {a : Nat} : (a, w) ∈ fillCells v ↔ a < Config.nPix ∧ w = v := by
  simp [fillCells, eq_comm]

theorem fillCells_addresses (v : Pixel) : (fillCells v).map Prod.fst = List.range Config.nPix := by
  rw [fillCells, List.map_map]
  exact List.map_id _

theorem fillCells_isEmpty (v : Pixel) : (fillCells v).isEmpty = false :=
  List.isEmpty_eq_false_iff_exists_mem.mpr ⟨(0, v), mem_fillCells.mpr ⟨by decide, rfl⟩⟩

/-- A loop of writes of one value is a walk whose cells all hold it. -/
theorem foldl_pixWrite_eq_walk (v : Pixel) (addresses : List Nat) (s : State) :
    addresses.foldl (fun t a => t.pixWrite a v) s =
      (addresses.map fun a => (a, v)).foldl (State.cellWith fun _ c => c) s := by
  rw [List.foldl_map]
  rfl

/-- Every cell of the RAM is written once, so the walk leaves the filled RAM. -/
theorem foldl_fillCells_pix (v : Pixel) (s : State) (hs : s.pix.wf = true) :
    ((fillCells v).foldl (State.cellWith fun _ c => c) s).pix = Memory.fill v := by
  have hinside : ∀ p ∈ fillCells v, p.1 < Config.nPix := fun _ hp => (mem_fillCells.mp hp).1
  have hdistinct : ((fillCells v).map Prod.fst).Nodup := fillCells_addresses v ▸ List.nodup_range
  obtain ⟨hwf, hwritten, -⟩ := foldl_cellWith_pix (fun _ c => c) (fillCells v) s hs hinside hdistinct
  refine Memory.ext_of_wf hwf (Memory.wf_fill v) fun a ha => ?_
  rw [hwritten a v (mem_fillCells.mpr ⟨ha, rfl⟩), Memory.read_fill, if_pos ha]

/-- On a canonical pixel RAM the loop and the fill give one state. -/
theorem foldl_pixWrite_eq_pixFill (v : Pixel) (s : State) (hs : s.pix.wf = true) :
    (List.range Config.nPix).foldl (fun t a => t.pixWrite a v) s = s.pixFill v := by
  rw [foldl_pixWrite_eq_walk, ← fillCells, foldl_cellWith_frame, foldl_fillCells_pix v s hs, fillCells_isEmpty,
    Bool.not_false, Bool.or_true]
  rfl

/-- Settles O13: the loop of the rule gives the filled state. -/
theorem memPreIsTheCellLoop : Obligations.MemPreIsTheCellLoop := fun color reps s hs =>
  (exec_memPre color reps s).trans (congrArg _ (foldl_pixWrite_eq_pixFill _ s hs).symm)

end Sys2Proof.Proofs.Preset
end

section
namespace Sys2Proof.Proofs.Tiles
open Sys2Proof.Machine

/-! ### One tile instruction: the walk of its cells -/

theorem exec_tile (b : TileBlock) (s : State) :
    exec (.tile b) s = .next ((tileCells b).foldl (State.cellWith fun _ c => c) s) := rfl

theorem exec_tileX (b : TileBlock) (s : State) :
    exec (.tileX b) s = .next ((tileCells b).foldl (State.cellWith fun p c => p ^^^ c) s) := rfl

/-- The whole effect of a tile walk, whatever its cell operation (42_tile_block.md R152, R153): the pixels of the tile
take `op (old value) (colour operand)`, `DIRTY` is set if the tile is inside the grid, and nothing else changes. -/
theorem tileWalk_effect (op : Pixel → Pixel → Pixel) (b : TileBlock) (s : State) (hs : s.pix.wf = true) :
    ∃ m : Memory,
      (tileCells b).foldl (State.cellWith op) s = { s with pix := m, dirty := s.dirty || insideGrid b } ∧
      m.wf = true ∧ (∀ a, 55296 ≤ a → m.read a = s.pix.read a) ∧
      ∀ x y, x < 288 → y < 192 →
        (InTile b x y → m.read (y * 288 + x) = op (s.pix.read (y * 288 + x)) (colorAt b x y)) ∧
        (¬ InTile b x y → m.read (y * 288 + x) = s.pix.read (y * 288 + x)) := by
  have hframe := foldl_cellWith_frame op (tileCells b) s
  rw [tileCells_isEmpty, Bool.not_not] at hframe
  have hwf := tileWalk_wf op b s hs
  refine ⟨_, hframe, hwf, fun a ha => ?outside, fun x y hx hy => ⟨fun hin => ?inTile, fun hout => ?elsewhere⟩⟩
  case outside => exact (Memory.read_outside hwf ha).trans (Memory.read_outside hs ha).symm
  case inTile => exact (tileWalk_read op b s hs hx hy).trans (if_pos hin)
  case elsewhere => exact (tileWalk_read op b s hs hx hy).trans (if_neg hout)

/-- Settles O15: the effect of the walk whose cell operation stores the colour operand. -/
theorem tileOverwritesItsCells : Obligations.TileOverwritesItsCells := by
  intro b s hs
  obtain ⟨m, hwalk, hpixels⟩ := tileWalk_effect (fun _ c => c) b s hs
  exact ⟨m, (exec_tile b s).trans (congrArg _ hwalk), hpixels⟩

/-- Settles O16: the effect of the walk whose cell operation is the exclusive or. -/
theorem tileXorsItsCells : Obligations.TileXorsItsCells := by
  intro b s hs
  obtain ⟨m, hwalk, hpixels⟩ := tileWalk_effect (fun p c => p ^^^ c) b s hs
  exact ⟨m, (exec_tileX b s).trans (congrArg _ hwalk), hpixels⟩

/-- Settles O17: outside the grid the walk has no cell. -/
theorem tileOutsideTheGridChangesNothing : Obligations.TileOutsideTheGridChangesNothing := by
  intro b s houtside
  rw [exec_tile, exec_tileX, tileCells_of_outside houtside]
  exact ⟨rfl, rfl⟩

/-! ### The exclusive or as a pattern over the grid -/

/-- What `TILEX` exclusive-ors into the pixel `(x, y)` of the grid: its colour operand in the tile, 0 elsewhere. -/
def xorPattern (b : TileBlock) (x y : Nat) : Pixel :=
  if x / 6 = b.column.toNat ∧ y / 12 = b.row.toNat then cellColor b (Fin.ofNat 6 x) (Fin.ofNat 12 y) else 0

theorem xorPattern_of_inTile {b : TileBlock} {x y : Nat} (hin : InTile b x y) :
    xorPattern b x y = cellColor b (Fin.ofNat 6 x) (Fin.ofNat 12 y) := if_pos hin

theorem xorPattern_of_not_inTile {b : TileBlock} {x y : Nat} (hout : ¬ InTile b x y) : xorPattern b x y = 0 :=
  if_neg hout

theorem pixAfter_tileX_read_eq_xor (b : TileBlock) {m : Memory} (hm : m.wf = true) {x y : Nat} (hx : x < 288)
    (hy : y < 192) : (pixAfter (.tileX b) m).read (y * 288 + x) = m.read (y * 288 + x) ^^^ xorPattern b x y := by
  rw [pixAfter_tileX_read b hm hx hy, xorPattern]
  split
  · rfl
  · exact BitVec.xor_zero.symm

theorem pixAfter_tileX_tileX_read (b c : TileBlock) {m : Memory} (hm : m.wf = true) {x y : Nat} (hx : x < 288)
    (hy : y < 192) : (pixAfter (.tileX c) (pixAfter (.tileX b) m)).read (y * 288 + x) =
      m.read (y * 288 + x) ^^^ (xorPattern b x y ^^^ xorPattern c x y) := by
  rw [pixAfter_tileX_read_eq_xor c (pixAfter_wf _ hm) hx hy, pixAfter_tileX_read_eq_xor b hm hx hy, BitVec.xor_assoc]

/-- The same pattern twice cancels. -/
theorem pixAfter_tileX_self_inverse (b : TileBlock) {m : Memory} (hm : m.wf = true) :
    pixAfter (.tileX b) (pixAfter (.tileX b) m) = m := by
  refine Memory.ext_of_grid (pixAfter_wf _ (pixAfter_wf _ hm)) hm fun x y hx hy => ?_
  rw [pixAfter_tileX_tileX_read b b hm hx hy, BitVec.xor_self, BitVec.xor_zero]

/-- Patterns commute, on one tile or on two. -/
theorem pixAfter_tileX_comm (b c : TileBlock) {m : Memory} (hm : m.wf = true) :
    pixAfter (.tileX b) (pixAfter (.tileX c) m) = pixAfter (.tileX c) (pixAfter (.tileX b) m) := by
  refine Memory.ext_of_grid (pixAfter_wf _ (pixAfter_wf _ hm)) (pixAfter_wf _ (pixAfter_wf _ hm)) fun x y hx hy => ?_
  rw [pixAfter_tileX_tileX_read c b hm hx hy, pixAfter_tileX_tileX_read b c hm hx hy,
    BitVec.xor_comm (xorPattern c x y)]

/-- The tile of `b` with the colours of `b` and `c` exclusive-ored. -/
def xorColors (b c : TileBlock) : TileBlock :=
  { b with color0 := b.color0 ^^^ c.color0, color1 := b.color1 ^^^ c.color1 }

theorem cellColor_of_bit_set {b : TileBlock} {cx : Fin 6} {cy : Fin 12}
    (hbit : b.mask[cy].getLsbD (5 - cx.val) = true) : cellColor b cx cy = b.color1 := if_pos hbit

theorem cellColor_of_bit_clear {b : TileBlock} {cx : Fin 6} {cy : Fin 12}
    (hbit : ¬ b.mask[cy].getLsbD (5 - cx.val) = true) : cellColor b cx cy = b.color0 := if_neg hbit

/-- With equal masks each pixel selects the same colour of both tiles. -/
theorem cellColor_xorColors {b c : TileBlock} (hmask : c.mask = b.mask) (cx : Fin 6) (cy : Fin 12) :
    cellColor (xorColors b c) cx cy = cellColor b cx cy ^^^ cellColor c cx cy := by
  by_cases hbit : b.mask[cy].getLsbD (5 - cx.val) = true
  · rw [cellColor_of_bit_set (b := xorColors b c) hbit, cellColor_of_bit_set hbit,
      cellColor_of_bit_set (hmask ▸ hbit), xorColors]
  · rw [cellColor_of_bit_clear (b := xorColors b c) hbit, cellColor_of_bit_clear hbit,
      cellColor_of_bit_clear (hmask ▸ hbit), xorColors]

theorem xorPattern_xorColors {b c : TileBlock} (hrow : c.row = b.row) (hcolumn : c.column = b.column)
    (hmask : c.mask = b.mask) (x y : Nat) :
    xorPattern (xorColors b c) x y = xorPattern b x y ^^^ xorPattern c x y := by
  have hinTile : InTile c x y ↔ InTile b x y := by rw [InTile, InTile, hrow, hcolumn]
  by_cases hin : InTile b x y
  · rw [xorPattern_of_inTile (b := xorColors b c) hin, xorPattern_of_inTile hin,
      xorPattern_of_inTile (hinTile.mpr hin), cellColor_xorColors hmask]
  · rw [xorPattern_of_not_inTile (b := xorColors b c) hin, xorPattern_of_not_inTile hin,
      xorPattern_of_not_inTile (mt hinTile.mp hin)]
    rfl

/-- On one tile with equal masks two patterns are the pattern of the exclusive-ored colours. -/
theorem pixAfter_tileX_xorColors {b c : TileBlock} (hrow : c.row = b.row) (hcolumn : c.column = b.column)
    (hmask : c.mask = b.mask) {m : Memory} (hm : m.wf = true) :
    pixAfter (.tileX (xorColors b c)) m = pixAfter (.tileX c) (pixAfter (.tileX b) m) := by
  refine Memory.ext_of_grid (pixAfter_wf _ hm) (pixAfter_wf _ (pixAfter_wf _ hm)) fun x y hx hy => ?_
  rw [pixAfter_tileX_read_eq_xor _ hm hx hy, pixAfter_tileX_tileX_read b c hm hx hy,
    xorPattern_xorColors hrow hcolumn hmask]

/-! ### The laws of 42_tile_block.md R154 and R155 -/

/-- The state after two `TILEX`. -/
theorem applied_tileX_tileX (b c : TileBlock) (s : State) :
    (s.applied (.tileX b)).applied (.tileX c) =
      { s with pix := pixAfter (.tileX c) (pixAfter (.tileX b) s.pix),
               dirty := s.dirty || insideGrid b || insideGrid c } := rfl

theorem insideGrid_congr {b c : TileBlock} (hrow : c.row = b.row) (hcolumn : c.column = b.column) :
    insideGrid c = insideGrid b := by
  rw [insideGrid, insideGrid, hrow, hcolumn]

/-- Settles O19: the three laws hold of the patterns, and `DIRTY` collects the same tile's bit in each. -/
theorem xorCompositionLaws : Obligations.XorCompositionLaws := by
  intro b c s hs
  refine ⟨⟨_, _, exec_eq _ s, exec_eq _ _, ?selfInverse⟩,
    fun hrow hcolumn => ⟨_, _, _, exec_eq _ s, exec_eq _ _, exec_eq _ s, (exec_eq _ _).trans (congrArg _ ?commute)⟩,
    fun hrow hcolumn hmask => ⟨_, _, exec_eq _ s, exec_eq _ _, (exec_eq _ s).trans (congrArg _ ?compose)⟩⟩
  case selfInverse =>
    rw [applied_tileX_tileX, pixAfter_tileX_self_inverse b hs, Bool.or_assoc, Bool.or_self]
  case commute =>
    rw [applied_tileX_tileX, applied_tileX_tileX, pixAfter_tileX_comm b c hs, insideGrid_congr hrow hcolumn]
  case compose =>
    rw [applied_tileX_tileX, ← pixAfter_tileX_xorColors hrow hcolumn hmask hs, insideGrid_congr hrow hcolumn,
      Bool.or_assoc, Bool.or_self]
    rfl

/-- On a blank tile the exclusive or stores the colour operand. -/
theorem pixAfter_tileX_of_blank {b : TileBlock} {m : Memory} (hm : m.wf = true)
    (hblank : ∀ x y, x < 288 → y < 192 → InTile b x y → m.read (y * 288 + x) = 0) :
    pixAfter (.tileX b) m = pixAfter (.tile b) m := by
  refine Memory.ext_of_grid (pixAfter_wf _ hm) (pixAfter_wf _ hm) fun x y hx hy => ?_
  rw [pixAfter_tileX_read b hm hx hy, pixAfter_tile_read b hm hx hy]
  split
  case isTrue hin =>
    rw [hblank x y hx hy hin]
    exact BitVec.zero_xor
  case isFalse => rfl

/-- The exclusive or of a tile's colours with themselves blanks it. -/
theorem pixAfter_tileX_tile_read {b : TileBlock} {m : Memory} (hm : m.wf = true) {x y : Nat} (hx : x < 288)
    (hy : y < 192) (hin : InTile b x y) : (pixAfter (.tileX b) (pixAfter (.tile b) m)).read (y * 288 + x) = 0 := by
  unfold InTile at hin
  rw [pixAfter_tileX_read b (pixAfter_wf _ hm) hx hy, if_pos hin, pixAfter_tile_read b hm hx hy, if_pos hin]
  exact BitVec.xor_self

/-- Settles O20: both sentences are facts about the pixel RAM, and `TILE` and `TILEX` set `DIRTY` alike. -/
theorem tileThenXorBlanksTheTile : Obligations.TileThenXorBlanksTheTile := by
  intro b s hs
  refine ⟨fun hblank => ⟨_, exec_eq _ s, (exec_eq _ s).trans (congrArg _ ?sameState)⟩,
    _, _, exec_eq _ s, exec_eq _ _, fun _ _ => pixAfter_tileX_tile_read hs⟩
  case sameState =>
    rw [State.applied, State.applied, pixAfter_tileX_of_blank hs hblank]
    rfl

/-! ### The two RAMs -/

/-- Settles O30: after an instruction `PIX` is a function of the instruction and `PIX`, and `PAL` of it and `PAL`. -/
theorem eachRamEvolvesOnItsOwn : Obligations.EachRamEvolvesOnItsOwn := fun i s s' =>
  ⟨_, _, exec_eq i s, exec_eq i s', congrArg (pixAfter i), congrArg (palAfter i)⟩

end Sys2Proof.Proofs.Tiles
end

section
namespace Sys2Proof.Proofs.ColorTable
open Sys2Proof.Machine

/-! ### One palette load -/

/-- A load writes its half and sets `DIRTY`, whatever it was (44_color_table.md R175; 92_eei_decisions.md D7). -/
theorem exec_clutLo (es : ClutEntries) (s : State) :
    exec (.clutLo es) s = .next { s with pal := halfAfter .low (resolveEntries es) s.pal, dirty := true } := by
  rw [exec, execClutLo, loadHalf_frame, loadHalf_pal_eq]

theorem exec_clutHi (es : ClutEntries) (s : State) :
    exec (.clutHi es) s = .next { s with pal := halfAfter .high (resolveEntries es) s.pal, dirty := true } := by
  rw [exec, execClutHi, loadHalf_frame, loadHalf_pal_eq]

theorem halfAfter_low_colorOf (es : ClutEntries) (pal : Vector Rgb 16) (i : Fin 8) :
    ColorOf es[i] (halfAfter .low (resolveEntries es) pal)[i.val] := by
  rw [(halfAfter_low es pal i).1, ← resolveEntries_get]
  exact Encoding.resolveEntries_colorOf es i

theorem halfAfter_high_colorOf (es : ClutEntries) (pal : Vector Rgb 16) (i : Fin 8) :
    ColorOf es[i] (halfAfter .high (resolveEntries es) pal)[8 + i.val] := by
  rw [(halfAfter_high es pal i).1, ← resolveEntries_get]
  exact Encoding.resolveEntries_colorOf es i

/-- Settles O23: the palette in question is `halfAfter` of the half, whose entries the model's laws give one by one. -/
theorem colorTableLoadsWriteTheirHalf : Obligations.ColorTableLoadsWriteTheirHalf := fun es s =>
  ⟨⟨_, exec_clutLo es s, fun i => ⟨halfAfter_low_colorOf es s.pal i, (halfAfter_low es s.pal i).2⟩⟩,
    ⟨_, exec_clutHi es s, fun i => ⟨halfAfter_high_colorOf es s.pal i, (halfAfter_high es s.pal i).2⟩⟩⟩

/-! ### Two palette loads -/

/-- The halves as `halfAfter_get` tells them apart: palette index `k` is in the half with `offset / 8 = k / 8`. -/
theorem offset_div_eight_ne {g h : PalHalf} (hne : g ≠ h) : g.offset / 8 ≠ h.offset / 8 :=
  match g, h, hne with
  | .low, .high, _ | .high, .low, _ => by decide
  | .low, .low, hne | .high, .high, hne => absurd rfl hne

/-- Loads of different halves commute: each entry belongs to one half, so only one of the two loads writes it
(44_color_table.md R177). -/
theorem halfAfter_comm {g h : PalHalf} (hne : g ≠ h) (colors colors' : Vector Rgb 8) (pal : Vector Rgb 16) :
    halfAfter g colors (halfAfter h colors' pal) = halfAfter h colors' (halfAfter g colors pal) := by
  have hentry : ∀ k : Fin 16, (halfAfter g colors (halfAfter h colors' pal))[k] =
      (halfAfter h colors' (halfAfter g colors pal))[k] := by
    intro k
    rw [halfAfter_get, halfAfter_get, halfAfter_get, halfAfter_get]
    by_cases hg : k.val / 8 = g.offset / 8
    · have hh : ¬ k.val / 8 = h.offset / 8 := fun hh => offset_div_eight_ne hne (hg.symm.trans hh)
      rw [if_pos hg, if_neg hh, if_pos hg]
    · rw [if_neg hg, if_neg hg]
  exact Vector.ext fun k hk => hentry ⟨k, hk⟩

/-- Settles O24: both orders give the palette of `halfAfter_comm`, and the later load of a half keeps the other half's
entries. -/
theorem paletteHalvesAreDisjoint : Obligations.PaletteHalvesAreDisjoint := by
  intro es fs s
  have hcomm := halfAfter_comm (g := .low) (h := .high) nofun (resolveEntries es) (resolveEntries fs) s.pal
  refine ⟨_, _, _, exec_clutLo es s, exec_clutHi fs _, exec_clutHi fs s, ?sameState, fun i => ⟨?low, ?high⟩⟩
  case sameState => rw [exec_clutLo, hcomm]
  case low =>
    rw [(halfAfter_high fs _ i).2]
    exact halfAfter_low_colorOf es s.pal i
  case high => exact halfAfter_high_colorOf fs _ i

/-! ### Indices past the palette -/

/-- An index past the palette is an error whatever the palette holds (45_host_ops.md R194). -/
theorem resolve?_of_high_index (s : State) {x y : Nat} (hx : x < 288) (hy : y < 192)
    (hindex : 16 ≤ (s.pix.read (y * 288 + x)).toNat) :
    s.resolve? x y = some (.error (.paletteIndexOutOfRange x y (s.pix.read (y * 288 + x)))) := by
  rw [resolve?_inside s hx hy, lookupIndex_error s x y hindex]

/-- Settles O25: a load keeps the pixel RAM, and with it the index that is past every palette. -/
theorem paletteLoadCannotResolveHighIndex : Obligations.PaletteLoadCannotResolveHighIndex := by
  intro es s x y hx hy hindex i hload
  rcases hload with rfl | rfl
  · exact ⟨_, exec_clutLo es s, resolve?_of_high_index { s with pal := _, dirty := true } hx hy hindex⟩
  · exact ⟨_, exec_clutHi es s, resolve?_of_high_index { s with pal := _, dirty := true } hx hy hindex⟩

end Sys2Proof.Proofs.ColorTable
end

section
namespace Sys2Proof.Proofs.HostOps
open Sys2Proof.Machine

/-! ### One read -/

/-- A palette read takes its entry by a 4-bit index, so that none is out of range (45_host_ops.md R192). -/
theorem hostReadPalette_eq (i : Fin 16) (s : State) : hostReadPalette i s = s.emit (.palette s.pal[i]) := rfl

/-- Settles O40: a pixel read has a value inside the grid only, the other two reads have one always. -/
theorem readsReturnTheStateUnchanged : Obligations.ReadsReturnTheStateUnchanged := by
  intro s rest x y i
  refine ⟨fun hread hx hy => ?pixelInside, fun hread hout => ?pixelOutside, fun hread => ?palette,
    fun hread => ?status⟩
  case pixelInside =>
    rw [step_event hread, react, hostReadPixel_inside _ hx hy]
    rfl
  case pixelOutside =>
    rw [step_event hread, react, hostReadPixel_outside _ hout]
    rfl
  case palette =>
    rw [step_event hread, react, hostReadPalette_eq]
    rfl
  case status =>
    rw [step_event hread, react]
    rfl

/-- Settles O41: the reaction is `State.clearDirty`, whatever `SESSION` is. -/
theorem clearDirtyClearsOnlyDirty : Obligations.ClearDirtyClearsOnlyDirty := by
  intro s rest hclear
  rw [step_event hclear, react]
  rfl

/-! ### One look-up -/

/-- An index of the palette resolves to its entry, opaque (45_host_ops.md R194; 92_eei_decisions.md D5). -/
theorem hostResolve_color {s : State} {x y : Nat} (hx : x < 288) (hy : y < 192)
    (hindex : (s.pix.read (y * 288 + x)).toNat < 16) :
    hostResolve x y s = s.emit (.resolved (opaqueColor s.pal[(s.pix.read (y * 288 + x)).toNat])) := by
  rw [hostResolve, resolve?_inside s hx hy, lookupIndex_color s x y hindex]

/-- An index past the palette raises (60_exceptions.md R207). -/
theorem hostResolve_error {s : State} {x y : Nat} (hx : x < 288) (hy : y < 192)
    (hindex : 16 ≤ (s.pix.read (y * 288 + x)).toNat) :
    hostResolve x y s = s.raise (.paletteIndexOutOfRange x y (s.pix.read (y * 288 + x))) := by
  rw [hostResolve, ColorTable.resolve?_of_high_index s hx hy hindex]

theorem hostResolve_outside (s : State) {x y : Nat} (hout : 288 ≤ x ∨ 192 ≤ y) :
    hostResolve x y s = s.refuse (.resolve x y) := by
  rw [hostResolve, resolve?_outside s hout]

/-- Settles O42: the three cases are those of `Resolve`, and each only emits its result. -/
theorem resolveGivesColorOrError : Obligations.ResolveGivesColorOrError := by
  intro s rest x y hresolve
  refine ⟨fun hx hy hlow => ?color, fun hx hy hhigh => ?error, fun hout => ?outside⟩
  case color =>
    have hindex : (s.pix.read (y * 288 + x)).toNat < 16 := Nat.lt_succ_of_le hlow
    refine ⟨s.pal[(s.pix.read (y * 288 + x)).toNat], Vector.getElem?_eq_getElem hindex, ?_⟩
    rw [step_event hresolve, react, hostResolve_color (s := s.setInbox rest) hx hy hindex]
    rfl
  case error =>
    rw [step_event hresolve, react, hostResolve_error (s := s.setInbox rest) hx hy hhigh]
    rfl
  case outside =>
    rw [step_event hresolve, react, hostResolve_outside _ hout]
    rfl

/-! ### The grid of look-ups -/

/-- Row `y` of `ResolveFrame`. -/
def frameRow (s : State) (y : Nat) : List Lookup :=
  (List.range 288).map fun x => s.lookupIndex x y (s.pix.read (y * 288 + x))

theorem frameRows_eq_map_frameRow (s : State) : s.frameRows = (List.range 192).map (frameRow s) := rfl

theorem frameRows_length (s : State) : s.frameRows.length = 192 := by simp [frameRows_eq_map_frameRow]

theorem frameRows_get? (s : State) {y : Nat} (hy : y < 192) : s.frameRows[y]? = some (frameRow s y) := by
  simp [frameRows_eq_map_frameRow, hy]

theorem frameRow_length (s : State) (y : Nat) : (frameRow s y).length = 288 := by simp [frameRow]

/-- Each result of the grid is the look-up of its own coordinate (45_host_ops.md R195). -/
theorem frameRow_get? (s : State) {x y : Nat} (hx : x < 288) (hy : y < 192) :
    (frameRow s y)[x]? = s.resolve? x y := by
  rw [resolve?_inside s hx hy]
  simp [frameRow, hx]

/-- Settles O43: the rows are the model's `State.frameRows`, and row `y` is `frameRow s y`. -/
theorem resolveFrameIsTheGridOfLookups : Obligations.ResolveFrameIsTheGridOfLookups := by
  intro s rest hframe
  refine ⟨s.frameRows, ?emitted, frameRows_length s, fun y hy =>
    ⟨frameRow s y, frameRows_get? s hy, frameRow_length s y, fun x hx => frameRow_get? s hx hy⟩⟩
  case emitted =>
    rw [step_event hframe, react]
    rfl

end Sys2Proof.Proofs.HostOps
end

section
namespace Sys2Proof.Proofs.Exceptions
open Sys2Proof.Machine Sys2Proof.Proofs.StateRules

/-- An event other than `Reset` and the byte that completes a packet keeps the screen (60_exceptions.md R218). -/
theorem react_screen {e : Event} {s t : State} (h : react e s = .next t) :
    (t.pix = s.pix ∧ t.pal = s.pal) ∨ e = .reset ∨ CompletesPacket e s := by
  rcases react_cases h with ⟨b, -, -, -, rfl⟩ | ⟨b, p, he, hrun, hc, -, -⟩ | ⟨-, -, -, rfl⟩ | ⟨-, -, -, rfl⟩ |
    ⟨-, rfl⟩ | ⟨he, -⟩ | ⟨-, -, -, os, rfl, -, -⟩
  · exact .inl ⟨rfl, rfl⟩
  · exact .inr (.inr ⟨hrun, hc, b, he⟩)
  · exact .inl ⟨rfl, rfl⟩
  · exact .inl ⟨rfl, rfl⟩
  · exact .inl ⟨rfl, rfl⟩
  · exact .inr (.inl he)
  · exact .inl ⟨rfl, rfl⟩

/-- Settles O51 with the event that the step takes; taking it from the inbox, like the idle step, keeps the screen. -/
theorem screenChangesOnlyAtRetireOrReset : Obligations.ScreenChangesOnlyAtRetireOrReset := by
  intro s t h
  rcases step_cases h with ⟨-, rfl⟩ | ⟨e, rest, hinbox, hreact⟩
  · exact .inl ⟨rfl, rfl⟩
  · simpa [hinbox, CompletesPacket] using react_screen hreact

end Sys2Proof.Proofs.Exceptions
end

section
namespace Sys2Proof.Proofs.ResetAndHazards
open Sys2Proof.Machine Sys2Proof.Proofs.StateRules

/-! ### Every event completes -/

/-- The 24th byte finds `BUF` full, so the retire reads no byte that holds no value (93_implementation_defined.md U11). -/
theorem pushByte_completes (b : Byte) {s : State} (hheld : s.buf.length = s.cnt.val) :
    ∃ t, pushByte b s = .next t := by
  by_cases hrun : s.session = .run
  · by_cases hroom : s.cnt.val + 1 < 24
    · exact ⟨_, pushByte_store b hrun hroom⟩
    · have hlast : s.cnt.val = 23 := by omega
      obtain ⟨p, hframed, -⟩ := storeByte_packet b hheld hlast
      exact ⟨_, (pushByte_complete b hrun hlast).trans ((retirePacket_eq hframed).trans (applyPacket_eq p _))⟩
  · exact ⟨_, pushByte_refused b hrun⟩

/-- A clean end, a short read or a refusal: each is a next state (40_framer_dispatch.md R122, R129). -/
theorem endOfStream_completes (s : State) : ∃ t, endOfStream s = .next t := by
  by_cases hrun : s.session = .run
  · by_cases hboundary : s.cnt.val = 0
    · exact ⟨_, endOfStream_clean hrun hboundary⟩
    · exact ⟨_, endOfStream_short hrun hboundary⟩
  · exact ⟨_, endOfStream_refused hrun⟩

/-- Of the events only `PushByte` needs the buffer to hold the bytes that `CNT` counts. -/
theorem react_completes (e : Event) {s : State} (hheld : s.buf.length = s.cnt.val) : ∃ t, react e s = .next t := by
  cases e with
  | pushByte b => exact pushByte_completes b hheld
  | endOfStream => exact endOfStream_completes s
  | clearDirty | readPixel | readPalette | readStatus | resolve | resolveFrame | reset => exact ⟨_, rfl⟩

/-- Settles O49: the idle step completes, and taking an event from the inbox leaves the buffer and its count. -/
theorem everyEventCompletes : Obligations.EveryEventCompletes := by
  intro s hframer
  cases hinbox : s.inbox with
  | nil => exact ⟨s, step_idle hinbox⟩
  | cons e rest =>
    rw [step_event hinbox]
    exact react_completes e (s := s.setInbox rest) hframer.held

/-! ### Reset -/

/-- The step of `Reset`, in every session (70_reset_and_hazards.md R235). -/
theorem step_reset {s : State} {rest : List Event} (hinbox : s.inbox = .reset :: rest) :
    step s = .next (s.setInbox rest).resetEvent := by
  rw [step_event hinbox, react, hostReset]

/-- Settles O44 with the step of `Reset`: an unlisted pixel reads as 0, and every palette entry is black. -/
theorem resetRestoresEveryElement : Obligations.ResetRestoresEveryElement := by
  intro s rest hinbox
  exact ⟨_, step_reset hinbox, Memory.read_nil, reset_pal_get, rfl, rfl, rfl, rfl, rfl, rfl, rfl⟩

/-! ### Power-on -/

/-- No event but `Reset` is enabled at power-on (93_implementation_defined.md U10). -/
theorem powerOn_of_ne_reset {e : Event} (he : e ≠ .reset) : powerOn e = none := by
  cases e with
  | reset => exact absurd rfl he
  | pushByte | endOfStream | clearDirty | readPixel | readPalette | readStatus | resolve | resolveFrame => rfl

/-- Settles O46 with the two cases of `powerOn`. -/
theorem powerOnNeedsReset : Obligations.PowerOnNeedsReset := by
  intro e
  refine ⟨fun hreset => ?_, powerOn_of_ne_reset⟩
  rw [hreset, powerOn]

end Sys2Proof.Proofs.ResetAndHazards
end
